-- ==== Sys2Proof/Word.lean ====
section
/-! DEFINITION. The word types of the block: bytes, image addresses, packets and lines (00_scope.md R8, R9). -/

namespace Sys2Proof

/-- An 8-bit value; a character is a byte (R9). -/
abbrev Byte := BitVec 8

/-- A 16-bit image address or `offset` field (R7 `ADDR_W`, R26). -/
abbrev Addr := BitVec 16

/-- A command or response packet: a byte sequence that arrives with its length (R24). -/
abbrev Packet := List Byte

/-- A record line, terminator included (R39). -/
abbrev Line := List Byte

end Sys2Proof
end

