-- ==== Sys2Proof/Config.lean ====
section
/-! DEFINITION. The block's parameters (00_scope.md R7) and the ASCII codes it uses (R9). `STAGING_CAP`, the one parameter R7 leaves
open, is an argument of `reconstruct`, so no statement can rest on a value of it. -/

namespace Sys2Proof.Config

/-- `IMG_SIZE`: the image holds addresses 0x0000 to 0xFFFF (R7, R26). -/
abbrev imgSize : Nat := 65536

/-- `START_RESET` (R7). -/
abbrev startReset : Addr := 0xFFFF

/-- `WARN_CAP` (R7). -/
abbrev warnCap : Nat := 10

/-- The value at which the 32-bit `WARN` saturates (R19). -/
abbrev warnMax : Nat := 0xFFFFFFFF

/-- `MAX_RECLEN` (R7). -/
abbrev maxReclen : Nat := 255

/-- The largest line an L packet can carry (R44). -/
abbrev maxLine : Nat := 65535

/-- `LINE_WINDOW` = 12 + 2·255 (R7, R86). -/
abbrev lineWindow : Nat := 522

/-- The converter's default `CHUNK_SIZE` (R7). -/
abbrev defaultChunk : Nat := 32

/-- The record mark `':'` (R9). -/
abbrev mark : Byte := 0x3A

/-- LF (R9). -/
abbrev lf : Byte := 0x0A

/-- CR (R9). -/
abbrev cr : Byte := 0x0D

end Sys2Proof.Config
end

