-- ==== Sys2Proof/Syntax.lean ====
section
/-! DEFINITION. What the two encodings of 30_encoding.md spell: the 20 commands (R45) and the record types (R43) as ONE inductive, and the
names of fault causes (R112), packet formats (R44) and decode results (R76). -/

namespace Sys2Proof

/-- The five fault causes (60_exceptions.md R112). -/
inductive FaultCause
  | illegalOpcode
  | malformedPacket
  | operand
  | contract
  | imageOverrun
  deriving DecidableEq, Repr

/-- The operand formats of a command packet (R44). -/
inductive Format
  | N
  | B
  | W
  | S2
  | S4
  | S8
  | WD
  | L
  deriving DecidableEq, Repr

/-- The fields of a record line that passed the checks of R76 steps 1 to 6: `reclen` is the number of data bytes (R39). -/
structure Record where
  rectype : Byte
  offset : Addr
  data : List Byte
  deriving DecidableEq, Repr

/-- The seven results of `decode` (R76). -/
inductive DecodeResult
  | data (offset : Addr) (bytes : List Byte)
  | endOfFile (start : Addr)
  | extendedLinearAddress (value : Addr)
  | ignorable
  | bufferTooSmall
  | invalidFormat
  | notARecord
  deriving DecidableEq, Repr

/-- The source's error classes, as far as the block raises them (60_exceptions.md R113). -/
inductive ErrorClass
  | fatalCapacity
  | recoverableFormat
  | programmerError
  deriving DecidableEq, Repr

/-- How a line fails R76 steps 1 to 6. -/
inductive LineFailure
  | notARecord
  | invalidFormat
  deriving DecidableEq, Repr

/-- The instructions: one constructor per mnemonic of spec/opcode_table.json. The first twenty are the commands of R45. The last seven
are the record rows, keyed on the rectype byte of a line that a DECODE carries (R43); such a term is what R76 step 7 dispatches on, with
DECODE's capacity operand where the row reads it (R79). -/
inductive Instr
  | hexval (c : Byte)
  | hexchr (b : Byte)
  | hex2rd (c0 c1 : Byte)
  | hex4rd (c0 c1 c2 c3 : Byte)
  | hex8rd (c0 c1 c2 c3 c4 c5 c6 c7 : Byte)
  | hex2wr (b : Byte)
  | ckclr
  | ckadd (b : Byte)
  | ckget
  | cktst
  | encdat (offset : Addr) (bytes : List Byte)
  | encela (ulba : Addr)
  | enceof (start : Addr)
  | decode (cap : Byte) (line : Line)
  | trkinit
  | trkdata (offset : Addr) (bytes : List Byte)
  | trkwarn
  | trkslice
  | imgrd (a : Addr)
  | rdstat
  | recData (cap : Byte) (offset : Addr) (data : List Byte)
  | recEof (offset : Addr) (data : List Byte)
  | recEsa (offset : Addr) (data : List Byte)
  | recSsa (offset : Addr) (data : List Byte)
  | recEla (offset : Addr) (data : List Byte)
  | recSla (offset : Addr) (data : List Byte)
  | recInvalid (rectype : Byte) (offset : Addr) (data : List Byte)
  deriving DecidableEq, Repr

/-- What the host does at the block's two inputs: a command packet (R24) or reset (R25). -/
inductive HostAction
  | command (p : Packet)
  | reset
  deriving DecidableEq, Repr

end Sys2Proof
end

