-- ==== Sys2Proof/Machine/Operands.lean ====
section
/-! DEFINITION. Byte order and operand fields of the command packet formats (00_scope.md R10, 30_encoding.md R44, 20_memory.md R31). -/

namespace Sys2Proof.Machine

/-- `be16(v)` (R10). -/
def be16 (v : Nat) : List Byte := [BitVec.ofNat 8 (v / 256), BitVec.ofNat 8 v]

/-- `be24(v)` (R10). -/
def be24 (v : Nat) : List Byte := [BitVec.ofNat 8 (v / 65536), BitVec.ofNat 8 (v / 256), BitVec.ofNat 8 v]

/-- `be32(v)` (R10). -/
def be32 (v : Nat) : List Byte :=
  [BitVec.ofNat 8 (v / 16777216), BitVec.ofNat 8 (v / 65536), BitVec.ofNat 8 (v / 256), BitVec.ofNat 8 v]

/-- Two bytes read big-endian as 16 bits: `hi·256 + lo` (R44 W, R31; R30 for the ELA payload). -/
def fromBe16 (hi lo : Byte) : Addr := BitVec.ofNat 16 (hi.toNat * 256 + lo.toNat)

/-- `p[i]` of a packet that the length check has passed; 0 where there is no such byte, which no command reads. -/
def byteAt (p : Packet) (i : Nat) : Byte := p.getD i 0

/-- The operand byte `b = p[1]` of format B; also `CAP` of format L (R44). -/
def operandB (p : Packet) : Byte := byteAt p 1

/-- The 16-bit operand `w = p[1]·256 + p[2]` of format W; also `offset` of format WD (R44). -/
def operandW (p : Packet) : Addr := fromBe16 (byteAt p 1) (byteAt p 2)

/-- The byte count `n = p[3]` of format WD (R44). -/
def countWD (p : Packet) : Nat := (byteAt p 3).toNat

/-- `LEN = p[2]·256 + p[3]` of format L (R44, R111). -/
def countL (p : Packet) : Nat := (byteAt p 2).toNat * 256 + (byteAt p 3).toNat

/-- The bytes `p[4..4+n)` of format WD (R44). -/
def bytesWD (p : Packet) : List Byte := (p.drop 4).take (countWD p)

/-- The line `p[4..4+LEN)` of format L (R44). -/
def lineL (p : Packet) : Line := (p.drop 4).take (countL p)

/-- The length a packet of format `f` must have, `need` of R111; none where a WD or L packet is shorter than its 4 fixed bytes. -/
def neededLength (f : Format) (p : Packet) : Option Nat :=
  match f with
  | .N => some 1
  | .B => some 2
  | .W => some 3
  | .S2 => some 3
  | .S4 => some 5
  | .S8 => some 9
  | .WD => if p.length < 4 then none else some (4 + countWD p)
  | .L => if p.length < 4 then none else some (4 + countL p)

end Sys2Proof.Machine
end

