-- ==== Sys2Proof/Machine/Flags.lean ====
section
/-! DEFINITION. The outcome codes of a response. The block has no condition-code or flag register (10_state.md R14): a test's outcome, a
warning's action and a decode's classification go back in the response packet (30_encoding.md R46 to R48). -/

namespace Sys2Proof.Machine

/-- The status byte of a completed command (R46). -/
def statusOk : Byte := 0x00

/-- CKTST's outcome `z` (R67): 1 when the running sum is zero. -/
def zeroFlag (ck : Byte) : Byte := if ck = 0 then 0x01 else 0x00

/-- TRKWARN's action code (R48, R93), from the count BEFORE the increment (90_conflicts.md C1): 0x01 DIAG, 0x02 NOTICE, 0x00 NONE. -/
def warnAction (pre : BitVec 32) : Byte :=
  if pre.toNat < Config.warnCap then 0x01 else if pre.toNat = Config.warnCap then 0x02 else 0x00

/-- `[KIND] ++ payload` of a decode result (R47). -/
def kindAndPayload : DecodeResult → Packet
  | .data offset bytes => [0x00] ++ be16 offset.toNat ++ [BitVec.ofNat 8 bytes.length] ++ bytes
  | .endOfFile start => [0x01] ++ be16 start.toNat
  | .extendedLinearAddress value => [0x02] ++ be16 value.toNat
  | .ignorable => [0x03]
  | .bufferTooSmall => [0x10]
  | .invalidFormat => [0x11]
  | .notARecord => [0x12]

/-- The error class of a decode result (R113 (b), (c)); none for a success. -/
def decodeErrorClass : DecodeResult → Option ErrorClass
  | .data _ _ => none
  | .endOfFile _ => none
  | .extendedLinearAddress _ => none
  | .ignorable => none
  | .bufferTooSmall => some .fatalCapacity
  | .invalidFormat => some .recoverableFormat
  | .notARecord => some .recoverableFormat

/-- The error class of a fault cause (R113 (d)); the other causes are the command port's own and have none of the source's. -/
def faultErrorClass : FaultCause → Option ErrorClass
  | .illegalOpcode => none
  | .malformedPacket => none
  | .operand => none
  | .contract => some .programmerError
  | .imageOverrun => none

/-- The response packet of a DECODE (R78). -/
def decodeResponse (r : DecodeResult) : Packet := [statusOk] ++ kindAndPayload r

end Sys2Proof.Machine
end

