-- ==== Sys2Proof/Machine/Codec.lean ====
section
/-! DEFINITION. The hex digit codec functions (40_hex_codec.md R53, R55, R56, R60) and the checksum function (41_checksum.md R63). -/

namespace Sys2Proof.Machine

/-- `hexval(c)` (R53): a character that is no hex digit gives 0. -/
def hexval (c : Byte) : BitVec 4 :=
  if 0x30 ≤ c.toNat ∧ c.toNat ≤ 0x39 then BitVec.ofNat 4 (c.toNat - 0x30)
  else if 0x41 ≤ c.toNat ∧ c.toNat ≤ 0x46 then BitVec.ofNat 4 (c.toNat - 0x41 + 10)
  else if 0x61 ≤ c.toNat ∧ c.toNat ≤ 0x66 then BitVec.ofNat 4 (c.toNat - 0x61 + 10)
  else 0

/-- `hexchr(n)` (R55): always uppercase. -/
def hexchr (n : BitVec 4) : Byte :=
  if n.toNat ≤ 9 then BitVec.ofNat 8 (0x30 + n.toNat) else BitVec.ofNat 8 (0x41 + (n.toNat - 10))

/-- `rdhex(s, i, k)` (R56): the `k` characters from position `i`, most significant nibble first. Its callers stay inside `s`. -/
def rdhex (s : List Byte) (i k : Nat) : Nat :=
  (List.range k).foldl (fun v j => v * 16 + (hexval (s.getD (i + j) 0)).toNat) 0

/-- `b[7:4]`. -/
def highNibble (b : Byte) : BitVec 4 := b.extractLsb' 4 4

/-- `b[3:0]`. -/
def lowNibble (b : Byte) : BitVec 4 := b.extractLsb' 0 4

/-- `wrhex2(b)` (R60): the high nibble first. -/
def wrhex2 (b : Byte) : List Byte := [hexchr (highNibble b), hexchr (lowNibble b)]

/-- The ordinary sum of the bytes as naturals (R63). -/
def byteSum (bytes : List Byte) : Nat := (bytes.map BitVec.toNat).sum

/-- `checksum(bytes)` (R63). -/
def checksum (bytes : List Byte) : Byte := BitVec.ofNat 8 ((256 - byteSum bytes % 256) % 256)

end Sys2Proof.Machine
end

