-- ==== Sys2Proof/Machine/Line.lean ====
section
/-! DEFINITION. The record wire format (30_encoding.md R39 to R41): the line builder of 42_record_encoder.md R69 and the checks of
43_record_decoder.md R76 steps 1 to 6. -/

namespace Sys2Proof.Machine

/-- `encline(header, payload)` (R69): the mark, two hex characters for each header, payload and checksum byte, one LF. -/
def encline (header payload : List Byte) : Line :=
  let body := header ++ payload
  [Config.mark] ++ (body ++ [checksum body]).flatMap wrhex2 ++ [Config.lf]

/-- The 4-byte header `[reclen, offset[15:8], offset[7:0], rectype]` (R41). -/
def header (reclen : Nat) (offset : Addr) (rectype : Byte) : List Byte :=
  [BitVec.ofNat 8 reclen] ++ be16 offset.toNat ++ [rectype]

/-- The line of a record (R39, R41, R69). -/
def encodeRecord (r : Record) : Line := encline (header r.data.length r.offset r.rectype) r.data

/-- The `reclen` field, `rdhex(line, 1, 2)` (R40). -/
def lineReclen (line : Line) : Nat := rdhex line 1 2

/-- The `offset` field, `rdhex(line, 3, 4)` (R40). -/
def lineOffset (line : Line) : Addr := BitVec.ofNat 16 (rdhex line 3 4)

/-- The `rectype` field, `rdhex(line, 7, 2)` (R40). -/
def lineRectype (line : Line) : Byte := BitVec.ofNat 8 (rdhex line 7 2)

/-- The data byte `d[i] = rdhex(line, 9 + 2i, 2)` (R40, R76). -/
def lineData (line : Line) (i : Nat) : Byte := BitVec.ofNat 8 (rdhex line (9 + 2 * i) 2)

/-- The sum of R76 step 6: the `reclen + 5` bytes from reclen to the checksum. -/
def lineSum (line : Line) : Nat :=
  (List.range (lineReclen line + 5)).foldl (fun s k => s + rdhex line (1 + 2 * k) 2) 0

/-- R76 steps 1 to 6, in order: the first step that fails decides (R77). -/
def readRecord (line : Line) : Except LineFailure Record :=
  if line.length = 0 ∨ line.getD 0 0 ≠ Config.mark then .error .notARecord
  else if line.length < 11 then .error .invalidFormat
  else if line.length < 12 + 2 * lineReclen line then .error .invalidFormat
  else if line.getD (11 + 2 * lineReclen line) 0 ≠ Config.lf ∧ line.getD (11 + 2 * lineReclen line) 0 ≠ Config.cr then
    .error .invalidFormat
  else if lineSum line % 256 ≠ 0 then .error .invalidFormat
  else .ok ⟨lineRectype line, lineOffset line, (List.range (lineReclen line)).map (lineData line)⟩

/-- The instruction row of a record: the rectype byte selects it (R43), and DECODE's `cap` goes with a data record (R79). -/
def recordInstr (cap : Byte) (r : Record) : Instr :=
  if r.rectype = 0x00 then .recData cap r.offset r.data
  else if r.rectype = 0x01 then .recEof r.offset r.data
  else if r.rectype = 0x02 then .recEsa r.offset r.data
  else if r.rectype = 0x03 then .recSsa r.offset r.data
  else if r.rectype = 0x04 then .recEla r.offset r.data
  else if r.rectype = 0x05 then .recSla r.offset r.data
  else .recInvalid r.rectype r.offset r.data

end Sys2Proof.Machine
end

