-- ==== Sys2Proof/WellFormed.lean ====
section
/-! DEFINITION. Which instruction terms have an encoding: the counts fit their fields (30_encoding.md R44, R39), and a REC_INVALID term has
a rectype of R85. -/

namespace Sys2Proof

/-- The record rows are the rows keyed on a line's rectype byte (R43); the rest are commands (R45). -/
def Instr.isRecord : Instr → Bool
  | .hexval _ => false
  | .hexchr _ => false
  | .hex2rd _ _ => false
  | .hex4rd _ _ _ _ => false
  | .hex8rd _ _ _ _ _ _ _ _ => false
  | .hex2wr _ => false
  | .ckclr => false
  | .ckadd _ => false
  | .ckget => false
  | .cktst => false
  | .encdat _ _ => false
  | .encela _ => false
  | .enceof _ => false
  | .decode _ _ => false
  | .trkinit => false
  | .trkdata _ _ => false
  | .trkwarn => false
  | .trkslice => false
  | .imgrd _ => false
  | .rdstat => false
  | .recData _ _ _ => true
  | .recEof _ _ => true
  | .recEsa _ _ => true
  | .recSsa _ _ => true
  | .recEla _ _ => true
  | .recSla _ _ => true
  | .recInvalid _ _ _ => true

/-- The counts fit: at most 255 data bytes (R44 WD, R39), at most 65535 line bytes (R44 L), rectype 0x06 to 0xFF (R85). -/
def Instr.wf : Instr → Bool
  | .hexval _ => true
  | .hexchr _ => true
  | .hex2rd _ _ => true
  | .hex4rd _ _ _ _ => true
  | .hex8rd _ _ _ _ _ _ _ _ => true
  | .hex2wr _ => true
  | .ckclr => true
  | .ckadd _ => true
  | .ckget => true
  | .cktst => true
  | .encdat _ bytes => decide (bytes.length ≤ Config.maxReclen)
  | .encela _ => true
  | .enceof _ => true
  | .decode _ line => decide (line.length ≤ Config.maxLine)
  | .trkinit => true
  | .trkdata _ bytes => decide (bytes.length ≤ Config.maxReclen)
  | .trkwarn => true
  | .trkslice => true
  | .imgrd _ => true
  | .rdstat => true
  | .recData _ _ data => decide (data.length ≤ Config.maxReclen)
  | .recEof _ data => decide (data.length ≤ Config.maxReclen)
  | .recEsa _ data => decide (data.length ≤ Config.maxReclen)
  | .recSsa _ data => decide (data.length ≤ Config.maxReclen)
  | .recEla _ data => decide (data.length ≤ Config.maxReclen)
  | .recSla _ data => decide (data.length ≤ Config.maxReclen)
  | .recInvalid rectype _ data => decide (6 ≤ rectype.toNat) && decide (data.length ≤ Config.maxReclen)

/-- A record's byte count fits its 8-bit field (R39). -/
def Record.wf (r : Record) : Bool := decide (r.data.length ≤ Config.maxReclen)

end Sys2Proof
end

