-- ==== Sys2Proof/Decode.lean ====
section
/-! DEFINITION. The two decoders of 30_encoding.md, total on any bytes: `decodePacket` for command packets (R44, R45, R111) and
`decodeLine` for the record a DECODE carries (R39, R43, R76); after them the encoder, written from the same tables, and the opcode table's
own numbering of an instruction's bits. -/

namespace Sys2Proof

open Sys2Proof.Machine

/-- The opcode map (R45): each opcode's format, and the command its fields spell (R44). -/
def opcodeMap (op : Byte) : Option (Format × (Packet → Instr)) :=
  match op.toNat with
  | 0x01 => some (.B, fun p => .hexval (operandB p))
  | 0x02 => some (.B, fun p => .hexchr (operandB p))
  | 0x03 => some (.S2, fun p => .hex2rd (byteAt p 1) (byteAt p 2))
  | 0x04 => some (.S4, fun p => .hex4rd (byteAt p 1) (byteAt p 2) (byteAt p 3) (byteAt p 4))
  | 0x05 => some (.S8, fun p => .hex8rd (byteAt p 1) (byteAt p 2) (byteAt p 3) (byteAt p 4)
      (byteAt p 5) (byteAt p 6) (byteAt p 7) (byteAt p 8))
  | 0x06 => some (.B, fun p => .hex2wr (operandB p))
  | 0x10 => some (.N, fun _ => .ckclr)
  | 0x11 => some (.B, fun p => .ckadd (operandB p))
  | 0x12 => some (.N, fun _ => .ckget)
  | 0x13 => some (.N, fun _ => .cktst)
  | 0x20 => some (.WD, fun p => .encdat (operandW p) (bytesWD p))
  | 0x21 => some (.W, fun p => .encela (operandW p))
  | 0x22 => some (.W, fun p => .enceof (operandW p))
  | 0x30 => some (.L, fun p => .decode (operandB p) (lineL p))
  | 0x40 => some (.N, fun _ => .trkinit)
  | 0x41 => some (.WD, fun p => .trkdata (operandW p) (bytesWD p))
  | 0x42 => some (.N, fun _ => .trkwarn)
  | 0x43 => some (.N, fun _ => .trkslice)
  | 0x44 => some (.W, fun p => .imgrd (operandW p))
  | 0x45 => some (.N, fun _ => .rdstat)
  | _ => none

/-- The packet checks of the prologue (R111, R49) in R116's order: empty packet, unknown opcode, wrong length; then the command. -/
def decodePacket (p : Packet) : Except FaultCause Instr :=
  match p with
  | [] => .error .malformedPacket
  | op :: _ =>
    match opcodeMap op with
    | none => .error .illegalOpcode
    | some (f, command) => if neededLength f p = some p.length then .ok (command p) else .error .malformedPacket

/-- The record instruction of a line (R76 steps 1 to 6, then R43's rectype map), `cap` being DECODE's capacity operand. -/
def decodeLine (cap : Byte) (line : Line) : Except LineFailure Instr :=
  match readRecord line with
  | .error e => .error e
  | .ok r => .ok (recordInstr cap r)

/-- Format WD behind an opcode (R44). -/
def packetWD (op : Byte) (offset : Addr) (bytes : List Byte) : Packet :=
  [op] ++ be16 offset.toNat ++ [BitVec.ofNat 8 bytes.length] ++ bytes

/-- Format W behind an opcode (R44). -/
def packetW (op : Byte) (w : Addr) : Packet := [op] ++ be16 w.toNat

/-- Format L behind an opcode (R44). -/
def packetL (op cap : Byte) (line : Line) : Packet := [op, cap] ++ be16 line.length ++ line

/-- The bytes of a well-formed instruction in its own encoding: a command's packet (R44, R45), a record row's line (R39, R43). -/
def encode : Instr → List Byte
  | .hexval c => [0x01, c]
  | .hexchr b => [0x02, b]
  | .hex2rd c0 c1 => [0x03, c0, c1]
  | .hex4rd c0 c1 c2 c3 => [0x04, c0, c1, c2, c3]
  | .hex8rd c0 c1 c2 c3 c4 c5 c6 c7 => [0x05, c0, c1, c2, c3, c4, c5, c6, c7]
  | .hex2wr b => [0x06, b]
  | .ckclr => [0x10]
  | .ckadd b => [0x11, b]
  | .ckget => [0x12]
  | .cktst => [0x13]
  | .encdat offset bytes => packetWD 0x20 offset bytes
  | .encela ulba => packetW 0x21 ulba
  | .enceof start => packetW 0x22 start
  | .decode cap line => packetL 0x30 cap line
  | .trkinit => [0x40]
  | .trkdata offset bytes => packetWD 0x41 offset bytes
  | .trkwarn => [0x42]
  | .trkslice => [0x43]
  | .imgrd a => packetW 0x44 a
  | .rdstat => [0x45]
  | .recData _ offset data => encodeRecord ⟨0x00, offset, data⟩
  | .recEof offset data => encodeRecord ⟨0x01, offset, data⟩
  | .recEsa offset data => encodeRecord ⟨0x02, offset, data⟩
  | .recSsa offset data => encodeRecord ⟨0x03, offset, data⟩
  | .recEla offset data => encodeRecord ⟨0x04, offset, data⟩
  | .recSla offset data => encodeRecord ⟨0x05, offset, data⟩
  | .recInvalid rectype offset data => encodeRecord ⟨rectype, offset, data⟩

/-- `n` bytes of a number numbered as the opcode table numbers an instruction's bits: the first byte is bits 7..0. -/
def tableBytes (n w : Nat) : List Byte := (List.range n).map fun i => BitVec.ofNat 8 (w / 256 ^ i)

/-- The packet that carries the table word `w` of `nbits` bits to the block. A command's bytes follow its opcode, zero above `nbits`, as
many as its format needs (R44). A one-byte word that is no opcode is the key of a record row only (the table's `applies_to`: "RECTYPE byte
of a record line, not a command opcode"): it reaches the block inside a DECODE packet, whose line is the record of that type with no data
and offset 0 (DESIGN CHOICE, log entry 4). -/
def tablePacket (nbits w : Nat) : Packet :=
  let word := w % 2 ^ nbits
  match opcodeMap (BitVec.ofNat 8 word) with
  | some (f, _) => tableBytes (max ((neededLength f (tableBytes 4 word)).getD 0) (nbits / 8)) word
  | none =>
    if nbits = 8 then encode (.decode 0 (encodeRecord ⟨BitVec.ofNat 8 word, 0, []⟩)) else tableBytes (nbits / 8) word

/-- The instruction the decoders read from a table word: `decodePacket` of its packet; for a record row's word, `decodeLine` of the line
that packet carries (log entry 4). -/
def decodeTableWord (nbits w : Nat) : Option Instr :=
  match decodePacket (tablePacket nbits w) with
  | .error _ => none
  | .ok (.decode cap line) =>
    if (opcodeMap (BitVec.ofNat 8 (w % 2 ^ nbits))).isSome then some (.decode cap line) else (decodeLine cap line).toOption
  | .ok i => some i

end Sys2Proof
end

