-- ==== Sys2Proof/Machine/State.lean ====
section
/-! DEFINITION. The state of the machine: the block's six elements (10_state.md R13) and, as the model's own two fields, what the host
will do at the block's inputs and what the block has answered (R24, R25); the stops of the model. -/

namespace Sys2Proof.Machine

/-- The memory image `IMG` (R21): the bytes that are not 0x00, by address, in the canonical form of `Memory.wf`; an address that is not
listed reads 0x00, as R35 says of a byte no record has written. -/
abbrev Memory := List Host.Cell

/-- The machine's state. -/
structure State where
  /-- `CK` (R16). -/
  ck : BitVec 8
  /-- `START` (R17). -/
  startAddr : BitVec 16
  /-- `END` (R18). -/
  endAddr : BitVec 17
  /-- `WARN` (R19). -/
  warn : BitVec 32
  /-- `FAULT` (R20): 0x00 while the block runs. -/
  faultCode : BitVec 8
  /-- `IMG` (R21). -/
  img : Memory
  /-- What the host will still do at the command port and the reset input (R24, R25), first to come first (log entry 1). -/
  port : List HostAction
  /-- Every response packet the block has returned, oldest first (R24, R46; log entry 2). No command reads it. -/
  responses : List Packet
  deriving DecidableEq, Repr

/-- The states the spec gives no step (93_implementation_defined.md U16). Both are safe: a state that holds one is unreachable from reset,
and the model stops there. -/
inductive Fault
  /-- `END` above 0x10000 (R18, U16). Raised by `step` and by TRKSLICE, whose reads would leave the image. Safe. -/
  | endBeyondImage
  /-- `FAULT` neither 0x00 nor a code of R112 (R20, U16). Raised by `step`. Safe. -/
  | faultCodeIllegal
  deriving DecidableEq, Repr

/-- The cases without a meaning. -/
inductive Refusal
  /-- An instruction that has no meaning yet, raised by `exec` only; no instruction is refused so in this model. Safe. -/
  | notModelled (mnemonic : String)
  /-- The converter started with a chunk size outside 1..255 (45_host_procedures.md R101, U5). Raised by `convert`, a host procedure, never
  by `step`. Safe. -/
  | chunkSizeOutOfRange
  /-- A byte source that returned no byte or more than it was asked for, against its interface (R99). Raised by `convert`, never by `step`.
  Safe. -/
  | readAgainstContract
  /-- A line of more than 65535 bytes, which no DECODE packet can carry (30_encoding.md R44; 92_eei_decisions.md D17: such lines "cannot be
  sent"; log entry 9). Raised by `reconstruct`, a host procedure, never by `step`. Safe. -/
  | lineCannotBeSent
  deriving DecidableEq, Repr

/-- The machine right after reset (R120, column "Reset value" of R13), with nothing at the port and nothing answered yet. -/
def State.reset : State where
  ck := 0x00
  startAddr := Config.startReset
  endAddr := 0
  warn := 0
  faultCode := 0x00
  img := []
  port := []
  responses := []

end Sys2Proof.Machine
end

