-- ==== Sys2Proof/Machine/Ops.lean ====
section
/-! DEFINITION. The named operations the meanings share: the image (20_memory.md R26, R32, 00_scope.md R10), responding (R10), taking a
fault and leaving the halted state by reset (60_exceptions.md R111, R114, R115; 70_reset_and_hazards.md R120). -/

namespace Sys2Proof.Machine

/-- `MemRead(a, 1)` (R10): an address that is not listed holds 0x00 (R35). -/
def Memory.read (m : Memory) (a : Nat) : Byte :=
  match m with
  | [] => 0
  | (b, w) :: rest => if a = b then w else Memory.read rest a

/-- `MemWrite(a, 1, v)` (R10), keeping the canonical form: writing 0x00 removes the entry. -/
def Memory.write (m : Memory) (a : Nat) (v : Byte) : Memory :=
  match m with
  | [] => if v = 0 then [] else [(a, v)]
  | (b, w) :: rest =>
    if a < b then (if v = 0 then (b, w) :: rest else (a, v) :: (b, w) :: rest)
    else if a = b then (if v = 0 then rest else (a, v) :: rest)
    else (b, w) :: Memory.write rest a v

/-- `MemWrite(a + i, 1, bytes[i])` for `i = 0 .. n-1`, in increasing `i` (R32). -/
def Memory.writeBytes (m : Memory) (a : Nat) (bytes : List Byte) : Memory :=
  match bytes with
  | [] => m
  | v :: rest => Memory.writeBytes (m.write a v) (a + 1) rest

/-- `[MemRead(a + i, 1) for i in 0 .. n-1]` (R94). -/
def Memory.readBytes (m : Memory) (a n : Nat) : List Byte := (List.range n).map fun i => m.read (a + i)

/-- `MemWrite(a, 1, 0x00)` for every address (R91): nothing is listed. -/
def Memory.clear : Memory := []

/-- The canonical form from address `lo` on: addresses strictly rising and inside the image, no listed byte 0x00. -/
def Memory.wfFrom (lo : Nat) (m : Memory) : Bool :=
  match m with
  | [] => true
  | (a, v) :: rest => decide (lo ≤ a) && decide (a < Config.imgSize) && decide (v ≠ 0) && Memory.wfFrom (a + 1) rest

/-- The canonical form of an image. -/
def Memory.wf (m : Memory) : Bool := Memory.wfFrom 0 m

/-- `respond(r)` (R10): the response packet goes back to the host. -/
def State.respond (s : State) (r : Packet) : State := { s with responses := s.responses ++ [r] }

/-- The last response the host has received; empty before the first. -/
def State.lastResponse (s : State) : Packet := s.responses.getLastD []

/-- The code of a fault cause (R112). -/
def faultByte : FaultCause → Byte
  | .illegalOpcode => 0xE1
  | .malformedPacket => 0xE2
  | .operand => 0xE3
  | .contract => 0xE4
  | .imageOverrun => 0xE5

/-- `fault(X)` (R111, R114): `FAULT` takes the cause's code, the response is that one byte, and nothing else is written. -/
def takeFault (c : FaultCause) (s : State) : State := ({ s with faultCode := faultByte c }).respond [faultByte c]

/-- Reset (R120, R25): every element of R13 takes its reset value, and the block runs again (R115, R121). What the host will do and what it
has received are not the block's, and stay (log entry 12). -/
def applyReset (s : State) : State := { State.reset with port := s.port, responses := s.responses }

/-- `FAULT` holds 0x00 or a code of R112 (R20). -/
def faultCodeLegal (f : Byte) : Bool :=
  decide (f = 0x00) || decide (f = 0xE1) || decide (f = 0xE2) || decide (f = 0xE3) || decide (f = 0xE4) || decide (f = 0xE5)

/-- Why a state has no step (U16), if it has none (log entry 5). -/
def stuckReason (s : State) : Option Fault :=
  if Config.imgSize < s.endAddr.toNat then some .endBeyondImage
  else if faultCodeLegal s.faultCode = false then some .faultCodeIllegal
  else none

/-- `START <- min(START, offset)` (R17, R92). -/
def lowerStart (startAddr offset : Addr) : Addr := BitVec.ofNat 16 (min startAddr.toNat offset.toNat)

/-- `END <- max(END, offset + n)` (R18, R92). DESIGN CHOICE (log entry 13): for zero-length records at different offsets R18, R22, R92 and R97
leave `END` at the greatest offset where R23 says the least; the model follows R18, R22, R92 and R97. -/
def raiseEnd (endAddr : BitVec 17) (offset : Addr) (n : Nat) : BitVec 17 :=
  BitVec.ofNat 17 (max endAddr.toNat (offset.toNat + n))

/-- `WARN <- min(WARN + 1, 0xFFFFFFFF)` (R19, R93). -/
def countWarning (warn : BitVec 32) : BitVec 32 := BitVec.ofNat 32 (min (warn.toNat + 1) Config.warnMax)

/-- The length of the slice `[START, END)`, 0 in the degenerate case (R94). -/
def sliceLength (s : State) : Nat :=
  if s.startAddr.toNat ≤ s.endAddr.toNat then s.endAddr.toNat - s.startAddr.toNat else 0

end Sys2Proof.Machine
end

