-- ==== Sys2Proof/Machine/Accumulator.lean ====
section
/-! DEFINITION. The meanings of the checksum-8 accumulator commands (41_checksum.md). They touch no element but `CK`. -/

namespace Sys2Proof.Machine

/-- CKCLR (R64). -/
def execCkclr (s : State) : Host.Outcome State Fault Refusal :=
  .next (({ s with ck := 0 }).respond [statusOk])

/-- CKADD (R65): the sum wraps, with no carry indication. -/
def execCkadd (b : Byte) (s : State) : Host.Outcome State Fault Refusal :=
  .next (({ s with ck := BitVec.ofNat 8 ((s.ck.toNat + b.toNat) % 256) }).respond [statusOk])

/-- CKGET (R66). -/
def execCkget (s : State) : Host.Outcome State Fault Refusal :=
  .next (s.respond [statusOk, BitVec.ofNat 8 ((256 - s.ck.toNat) % 256)])

/-- CKTST (R67). -/
def execCktst (s : State) : Host.Outcome State Fault Refusal :=
  .next (s.respond [statusOk, zeroFlag s.ck])

end Sys2Proof.Machine
end

