-- ==== Sys2Proof/Machine/Decoder.lean ====
section
/-! DEFINITION. The record decoder (43_record_decoder.md): step 7 of R76, one function and one meaning per record row (R79 to R85), the
function `decodeRecordLine` of R76, and the meaning of DECODE (R78). No state element is read or written. -/

namespace Sys2Proof.Machine

/-- R79, rectype 0x00: `reclen = 0` is legal and no offset constraint applies. -/
def classifyData (cap : Byte) (offset : Addr) (data : List Byte) : DecodeResult :=
  if cap.toNat < data.length then .bufferTooSmall else .data offset data

/-- R80, rectype 0x01. -/
def classifyEof (offset : Addr) (data : List Byte) : DecodeResult :=
  if data.length ≠ 0 then .invalidFormat else .endOfFile offset

/-- R81, rectype 0x02. -/
def classifyEsa (offset : Addr) (data : List Byte) : DecodeResult :=
  if data.length ≠ 2 ∨ offset ≠ 0 then .notARecord else .ignorable

/-- R82, rectype 0x03. -/
def classifySsa (offset : Addr) (data : List Byte) : DecodeResult :=
  if data.length ≠ 4 ∨ offset ≠ 0 then .notARecord else .ignorable

/-- R83, rectype 0x04: the payload is big-endian (R30). -/
def classifyEla (offset : Addr) (data : List Byte) : DecodeResult :=
  if data.length ≠ 2 ∨ offset ≠ 0 then .notARecord
  else .extendedLinearAddress (fromBe16 (data.getD 0 0) (data.getD 1 0))

/-- R84, rectype 0x05. -/
def classifySla (offset : Addr) (data : List Byte) : DecodeResult :=
  if data.length ≠ 4 ∨ offset ≠ 0 then .notARecord else .ignorable

/-- R85, rectype 0x06 to 0xFF. -/
def classifyInvalid : DecodeResult := .invalidFormat

/-- The record row REC_DATA (R79). -/
def execRecData (cap : Byte) (offset : Addr) (data : List Byte) (s : State) : Host.Outcome State Fault Refusal :=
  .next (s.respond (decodeResponse (classifyData cap offset data)))

/-- The record row REC_EOF (R80). -/
def execRecEof (offset : Addr) (data : List Byte) (s : State) : Host.Outcome State Fault Refusal :=
  .next (s.respond (decodeResponse (classifyEof offset data)))

/-- The record row REC_ESA (R81). -/
def execRecEsa (offset : Addr) (data : List Byte) (s : State) : Host.Outcome State Fault Refusal :=
  .next (s.respond (decodeResponse (classifyEsa offset data)))

/-- The record row REC_SSA (R82). -/
def execRecSsa (offset : Addr) (data : List Byte) (s : State) : Host.Outcome State Fault Refusal :=
  .next (s.respond (decodeResponse (classifySsa offset data)))

/-- The record row REC_ELA (R83). -/
def execRecEla (offset : Addr) (data : List Byte) (s : State) : Host.Outcome State Fault Refusal :=
  .next (s.respond (decodeResponse (classifyEla offset data)))

/-- The record row REC_SLA (R84). -/
def execRecSla (offset : Addr) (data : List Byte) (s : State) : Host.Outcome State Fault Refusal :=
  .next (s.respond (decodeResponse (classifySla offset data)))

/-- The record row REC_INVALID (R85): whatever the rectype, the offset and the data. -/
def execRecInvalid (_rectype : Byte) (_offset : Addr) (_data : List Byte) (s : State) : Host.Outcome State Fault Refusal :=
  .next (s.respond (decodeResponse classifyInvalid))

/-- R76 step 7: the record row that the rectype selects (R43) runs. -/
def execRecord (cap : Byte) (r : Record) (s : State) : Host.Outcome State Fault Refusal :=
  if r.rectype = 0x00 then execRecData cap r.offset r.data s
  else if r.rectype = 0x01 then execRecEof r.offset r.data s
  else if r.rectype = 0x02 then execRecEsa r.offset r.data s
  else if r.rectype = 0x03 then execRecSsa r.offset r.data s
  else if r.rectype = 0x04 then execRecEla r.offset r.data s
  else if r.rectype = 0x05 then execRecSla r.offset r.data s
  else execRecInvalid r.rectype r.offset r.data s

/-- The result of a line that fails R76 steps 1 to 6. -/
def failureResult : LineFailure → DecodeResult
  | .notARecord => .notARecord
  | .invalidFormat => .invalidFormat

/-- DECODE (R78): a line that fails steps 1 to 6 is answered by its failure; a record runs its row. A failure is a result, not a fault. -/
def execDecode (cap : Byte) (line : Line) (s : State) : Host.Outcome State Fault Refusal :=
  match readRecord line with
  | .error e => .next (s.respond (decodeResponse (failureResult e)))
  | .ok r => execRecord cap r s

/-- The classification of a record (R76 step 7, R79 to R85), as a value. -/
def classify (cap : Byte) (r : Record) : DecodeResult :=
  if r.rectype = 0x00 then classifyData cap r.offset r.data
  else if r.rectype = 0x01 then classifyEof r.offset r.data
  else if r.rectype = 0x02 then classifyEsa r.offset r.data
  else if r.rectype = 0x03 then classifySsa r.offset r.data
  else if r.rectype = 0x04 then classifyEla r.offset r.data
  else if r.rectype = 0x05 then classifySla r.offset r.data
  else classifyInvalid

/-- `decode(line, cap)` (R76), as a value. -/
def decodeRecordLine (line : Line) (cap : Byte) : DecodeResult :=
  match readRecord line with
  | .error e => failureResult e
  | .ok r => classify cap r

end Sys2Proof.Machine
end

