-- ==== Sys2Proof/Machine/Encoder.lean ====
section
/-! DEFINITION. The meanings of the record encoder commands (42_record_encoder.md). They read and write no state element, `CK` included. -/

namespace Sys2Proof.Machine

/-- The response that carries a line: `[0x00] ++ be16(len(line)) ++ line` (R45, R72 to R74). -/
def lineResponse (line : Line) : Packet := [statusOk] ++ be16 line.length ++ line

/-- ENCDAT (R72, R71): the contract is `0 < len(bytes) < 256`; a packet cannot spell 256 bytes or more (log entry 6). -/
def execEncdat (offset : Addr) (bytes : List Byte) (s : State) : Host.Outcome State Fault Refusal :=
  if bytes.length = 0 ∨ Config.maxReclen < bytes.length then .next (takeFault .contract s)
  else .next (s.respond (lineResponse (encline (header bytes.length offset 0x00) bytes)))

/-- ENCELA (R73): type 0x04, offset field 0, the payload big-endian (R30). -/
def execEncela (ulba : Addr) (s : State) : Host.Outcome State Fault Refusal :=
  .next (s.respond (lineResponse (encline (header 2 0 0x04) (be16 ulba.toNat))))

/-- ENCEOF (R74): type 0x01, no payload, `start` in the offset field. -/
def execEnceof (start : Addr) (s : State) : Host.Outcome State Fault Refusal :=
  .next (s.respond (lineResponse (encline (header 0 start 0x01) [])))

end Sys2Proof.Machine
end

