-- ==== Sys2Proof/Machine/HexCodec.lean ====
section
/-! DEFINITION. The meanings of the hex digit codec commands (40_hex_codec.md). They write no state element. -/

namespace Sys2Proof.Machine

/-- HEXVAL (R54). -/
def execHexval (c : Byte) (s : State) : Host.Outcome State Fault Refusal :=
  .next (s.respond [statusOk, (hexval c).setWidth 8])

/-- HEXCHR (R55): the reserved bits 7:4 must be 0, else OPERAND. -/
def execHexchr (b : Byte) (s : State) : Host.Outcome State Fault Refusal :=
  if highNibble b ≠ 0 then .next (takeFault .operand s)
  else .next (s.respond [statusOk, hexchr (lowNibble b)])

/-- HEX2RD (R57). -/
def execHex2rd (c0 c1 : Byte) (s : State) : Host.Outcome State Fault Refusal :=
  .next (s.respond [statusOk, BitVec.ofNat 8 (rdhex [c0, c1] 0 2)])

/-- HEX4RD (R58). -/
def execHex4rd (c0 c1 c2 c3 : Byte) (s : State) : Host.Outcome State Fault Refusal :=
  .next (s.respond ([statusOk] ++ be16 (rdhex [c0, c1, c2, c3] 0 4)))

/-- HEX8RD (R59). -/
def execHex8rd (c0 c1 c2 c3 c4 c5 c6 c7 : Byte) (s : State) : Host.Outcome State Fault Refusal :=
  .next (s.respond ([statusOk] ++ be32 (rdhex [c0, c1, c2, c3, c4, c5, c6, c7] 0 8)))

/-- HEX2WR (R61). -/
def execHex2wr (b : Byte) (s : State) : Host.Outcome State Fault Refusal :=
  .next (s.respond ([statusOk] ++ wrhex2 b))

end Sys2Proof.Machine
end

