-- ==== Sys2Proof/Machine/Tracker.lean ====
section
/-! DEFINITION. The meanings of the address range tracker commands (44_range_tracker.md). -/

namespace Sys2Proof.Machine

/-- TRKINIT (R91): a new run; `CK` and `FAULT` are unchanged. -/
def execTrkinit (s : State) : Host.Outcome State Fault Refusal :=
  .next (({ s with startAddr := Config.startReset, endAddr := 0, warn := 0, img := Memory.clear }).respond [statusOk])

/-- TRKDATA (R92): the overrun check comes before any write. -/
def execTrkdata (offset : Addr) (bytes : List Byte) (s : State) : Host.Outcome State Fault Refusal :=
  if Config.imgSize < offset.toNat + bytes.length then .next (takeFault .imageOverrun s)
  else
    .next (({ s with
      img := s.img.writeBytes offset.toNat bytes
      startAddr := lowerStart s.startAddr offset
      endAddr := raiseEnd s.endAddr offset bytes.length }).respond [statusOk])

/-- TRKWARN (R93): the action comes from the count before the increment. -/
def execTrkwarn (s : State) : Host.Outcome State Fault Refusal :=
  .next (({ s with warn := countWarning s.warn }).respond [statusOk, warnAction s.warn])

/-- TRKSLICE (R94). An `END` above 0x10000, which no run reaches, would read past the image: that state is stuck (U16). -/
def execTrkslice (s : State) : Host.Outcome State Fault Refusal :=
  if Config.imgSize < s.endAddr.toNat then .fault .endBeyondImage
  else
    .next (s.respond ([statusOk] ++ be16 s.startAddr.toNat ++ be24 (sliceLength s)
      ++ s.img.readBytes s.startAddr.toNat (sliceLength s)))

/-- IMGRD (R95): every 16-bit address is inside the image. -/
def execImgrd (a : Addr) (s : State) : Host.Outcome State Fault Refusal :=
  .next (s.respond [statusOk, s.img.read a.toNat])

/-- RDSTAT (R96). -/
def execRdstat (s : State) : Host.Outcome State Fault Refusal :=
  .next (s.respond ([statusOk, s.ck] ++ be16 s.startAddr.toNat ++ be24 s.endAddr.toNat ++ be32 s.warn.toNat))

end Sys2Proof.Machine
end

