-- ==== Sys2Proof/Machine/Dispatch.lean ====
section
/-! DEFINITION. One arm per instruction. `exec i s` is instruction `i`'s own rule; the prologue that every command runs before it
(60_exceptions.md R111) is Machine/Prologue.lean's. -/

namespace Sys2Proof.Machine

def exec (i : Instr) (s : State) : Host.Outcome State Fault Refusal :=
  match i with
  | .hexval c => Sys2Proof.Machine.execHexval c s
  | .hexchr b => Sys2Proof.Machine.execHexchr b s
  | .hex2rd c0 c1 => Sys2Proof.Machine.execHex2rd c0 c1 s
  | .hex4rd c0 c1 c2 c3 => Sys2Proof.Machine.execHex4rd c0 c1 c2 c3 s
  | .hex8rd c0 c1 c2 c3 c4 c5 c6 c7 => Sys2Proof.Machine.execHex8rd c0 c1 c2 c3 c4 c5 c6 c7 s
  | .hex2wr b => Sys2Proof.Machine.execHex2wr b s
  | .ckclr => Sys2Proof.Machine.execCkclr s
  | .ckadd b => Sys2Proof.Machine.execCkadd b s
  | .ckget => Sys2Proof.Machine.execCkget s
  | .cktst => Sys2Proof.Machine.execCktst s
  | .encdat offset bytes => Sys2Proof.Machine.execEncdat offset bytes s
  | .encela ulba => Sys2Proof.Machine.execEncela ulba s
  | .enceof start => Sys2Proof.Machine.execEnceof start s
  | .decode cap line => Sys2Proof.Machine.execDecode cap line s
  | .trkinit => Sys2Proof.Machine.execTrkinit s
  | .trkdata offset bytes => Sys2Proof.Machine.execTrkdata offset bytes s
  | .trkwarn => Sys2Proof.Machine.execTrkwarn s
  | .trkslice => Sys2Proof.Machine.execTrkslice s
  | .imgrd a => Sys2Proof.Machine.execImgrd a s
  | .rdstat => Sys2Proof.Machine.execRdstat s
  | .recData cap offset data => Sys2Proof.Machine.execRecData cap offset data s
  | .recEof offset data => Sys2Proof.Machine.execRecEof offset data s
  | .recEsa offset data => Sys2Proof.Machine.execRecEsa offset data s
  | .recSsa offset data => Sys2Proof.Machine.execRecSsa offset data s
  | .recEla offset data => Sys2Proof.Machine.execRecEla offset data s
  | .recSla offset data => Sys2Proof.Machine.execRecSla offset data s
  | .recInvalid rectype offset data => Sys2Proof.Machine.execRecInvalid rectype offset data s

end Sys2Proof.Machine
end

