-- ==== Sys2Proof/Machine/Prologue.lean ====
section
/-! DEFINITION. What comes before an instruction's own rule: taking the host's next action from the port (10_state.md R24, R25) and the
common prologue of every command (60_exceptions.md R111, R115, R116). -/

namespace Sys2Proof.Machine

/-- What fetching gives: nothing to do, an action that ends before any command's own rule, a command to run, or no step (U16). -/
inductive Fetched
  | idle
  | answered (t : State)
  | run (i : Instr) (t : State)
  | stuck (f : Fault)
  deriving DecidableEq, Repr

/-- The prologue (R111, R116): a halted block answers `[FAULT]` with no effect at all; a packet that is not a command faults; otherwise the
command's own rule runs. -/
def prologue (p : Packet) (s : State) : Fetched :=
  if s.faultCode ≠ 0 then .answered (s.respond [s.faultCode])
  else
    match decodePacket p with
    | .error c => .answered (takeFault c s)
    | .ok i => .run i s

/-- The host's next action, taken from the port: reset (R25, R120) or one command packet (R24). With none pending the block idles. -/
def fetch (s : State) : Fetched :=
  match stuckReason s with
  | some f => .stuck f
  | none =>
    match s.port with
    | [] => .idle
    | .reset :: rest => .answered (applyReset { s with port := rest })
    | .command p :: rest => prologue p { s with port := rest }

/-- A block with no pending action keeps all its state (R119; log entry 3). -/
def idleStep (s : State) : State := s

/-- The host sends packet `p` next (R98); what it was going to do comes after. -/
def sendNext (p : Packet) (s : State) : State := { s with port := .command p :: s.port }

end Sys2Proof.Machine
end

