-- ==== Sys2Proof/Machine/Step.lean ====
section
/-! DEFINITION. One step: one host action and the block's whole answer to it (10_state.md R24, 20_memory.md R33). -/

namespace Sys2Proof.Machine

/-- One step of the machine. -/
def step (s : State) : Host.Outcome State Fault Refusal :=
  match fetch s with
  | .idle => .next (idleStep s)
  | .answered t => .next t
  | .run i t => exec i t
  | .stuck f => .fault f

/-- `s` with the opcode-table word `w` of `nbits` bits as the packet the host sends next. -/
def State.withFetchWord (s : State) (nbits w : Nat) : State := sendNext (tablePacket nbits w) s

end Sys2Proof.Machine
end

