-- ==== Sys2Proof/Machine/CommandPort.lean ====
section
/-! DEFINITION. The host's side of the command port: sending one command and taking its response (45_host_procedures.md, `cmd(X …)`), a
sequence of commands that ends at the first fault, and the three pseudo-commands (30_encoding.md R52). -/

namespace Sys2Proof.Machine

/-- Two things in sequence; a stop ends both. -/
def andThen {α β : Type} (x : Host.Outcome α Fault Refusal) (f : α → Host.Outcome β Fault Refusal) :
    Host.Outcome β Fault Refusal :=
  match x with
  | .next a => f a
  | .fault r => .fault r
  | .refused r => .refused r

/-- Send one packet and take its response: one step of the machine (R98, 20_memory.md R36). -/
def sendPacket (p : Packet) (s : State) : Host.Outcome (Packet × State) Fault Refusal :=
  andThen (step (sendNext p s)) fun t => .next (t.lastResponse, t)

/-- `cmd(X …)`: send a command as its packet. -/
def cmd (i : Instr) (s : State) : Host.Outcome (Packet × State) Fault Refusal := sendPacket (encode i) s

/-- A response whose status byte is 0x00 (R46). -/
def completed (r : Packet) : Bool := decide (byteAt r 0 = statusOk)

/-- Commands in order; the sequence ends at the first fault of any of them (R52). The value is the last response. -/
def cmdAll (last : Packet) (cmds : List Instr) (s : State) : Host.Outcome (Packet × State) Fault Refusal :=
  match cmds with
  | [] => .next (last, s)
  | i :: rest => andThen (cmd i s) fun rt => if completed rt.1 then cmdAll rt.1 rest rt.2 else .next rt

/-- `CKSUM [b0, …]` (R52). -/
def cksumCommands (bytes : List Byte) : List Instr := [.ckclr] ++ bytes.map .ckadd ++ [.ckget]

/-- `CKVERIFY [b0, …]` (R52). -/
def ckverifyCommands (bytes : List Byte) : List Instr := [.ckclr] ++ bytes.map .ckadd ++ [.cktst]

/-- The `offset` of a DECODE response of KIND Data (R47). -/
def responseOffset (r : Packet) : Addr := fromBe16 (byteAt r 2) (byteAt r 3)

/-- The `bytes` of a DECODE response of KIND Data (R47). -/
def responseBytes (r : Packet) : List Byte := (r.drop 5).take (byteAt r 4).toNat

/-- `ACCEPT r` (R52): for a DECODE response of KIND Data; no expansion for any other response. -/
def acceptCommands (r : Packet) : Option (List Instr) :=
  if completed r ∧ byteAt r 1 = 0x00 then some [.trkdata (responseOffset r) (responseBytes r)] else none

/-- CKSUM run on the block. -/
def cksum (bytes : List Byte) (s : State) : Host.Outcome (Packet × State) Fault Refusal := cmdAll [] (cksumCommands bytes) s

/-- CKVERIFY run on the block. -/
def ckverify (bytes : List Byte) (s : State) : Host.Outcome (Packet × State) Fault Refusal :=
  cmdAll [] (ckverifyCommands bytes) s

end Sys2Proof.Machine
end

