-- ==== Sys2Proof/Machine/HostProcedures.lean ====
section
/-! DEFINITION. The two host procedures (45_host_procedures.md): the Binary→Hex converter (R100 to R103) and the Hex→Binary reconstructor
(R104, R105), over the block's commands, with the host's collaborators at their interface (R99) and the outcomes of a run (R106, R107). -/

namespace Sys2Proof.Machine

/-- What one `readbytes(k)` returns (R99), but for end of input, which is the end of the list of reads (log entry 8). -/
inductive ReadBytes
  | bytes (s : List Byte)
  | ioFail
  deriving DecidableEq, Repr

/-- What one `readline()` returns (R99), but for end of input, which is the end of the list of reads (log entry 9). -/
inductive ReadLine
  | line (s : Line)
  | ioFail
  deriving DecidableEq, Repr

/-- The byte sink (R99): what it has taken, and how many more writes succeed before one fails, if one ever does (log entry 10). -/
structure Sink where
  written : List Byte
  writesLeft : Option Nat
  deriving DecidableEq, Repr

/-- The outcomes of a run (R106). -/
inductive RunOutcome
  | ok
  | fatalIo
  | fatalCapacity
  | fatalBlock
  deriving DecidableEq, Repr

/-- The lines a host emits, without their text, which no source gives (R6, R93, R106; log entry 11). -/
inductive Diagnostic
  | warning
  | furtherSuppressed
  | fatal
  deriving DecidableEq, Repr

/-- A run that has returned (R107): its outcome, the block, the sink and the diagnostics as it left them. -/
structure Run where
  outcome : RunOutcome
  block : State
  sink : Sink
  diagnostics : List Diagnostic
  deriving DecidableEq, Repr

/-- `write(s)` (R99): none is IOFAIL. -/
def Sink.write (k : Sink) (s : List Byte) : Option Sink :=
  match k.writesLeft with
  | none => some { k with written := k.written ++ s }
  | some 0 => none
  | some (n + 1) => some { written := k.written ++ s, writesLeft := some n }

/-- A run ends at once with a fatal outcome and its one-line diagnostic (R106). -/
def fatalRun (o : RunOutcome) (s : State) (k : Sink) (ds : List Diagnostic) : Run := ⟨o, s, k, ds ++ [.fatal]⟩

/-- `line of r`: a response's bytes after its status and its 2-byte length (R100). -/
def responseLine (r : Packet) : Line := r.drop 3

/-- `r := cmd(X); write(line of r) or FATAL_IO`, then what follows (R100). A block fault is FATAL_BLOCK (R106). -/
def emitLine (i : Instr) (k : Sink) (s : State) (after : Sink → State → Host.Outcome Run Fault Refusal) :
    Host.Outcome Run Fault Refusal :=
  andThen (cmd i s) fun rt =>
    if completed rt.1 then
      match k.write (responseLine rt.1) with
      | none => .next (fatalRun .fatalIo rt.2 k [])
      | some k' => after k' rt.2
    else .next (fatalRun .fatalBlock rt.2 k [])

/-- The converter's loop and its last record (R100): the offset advances modulo 65536 (R102). A read must return 1 to `C` bytes (R99). -/
def convertLoop (C : Nat) (offset : Addr) (reads : List ReadBytes) (k : Sink) (s : State) : Host.Outcome Run Fault Refusal :=
  match reads with
  | [] => emitLine (.enceof 0x0000) k s fun k' t => .next ⟨.ok, t, k', []⟩
  | .ioFail :: _ => .next (fatalRun .fatalIo s k [])
  | .bytes chunk :: rest =>
    if chunk.length = 0 ∨ C < chunk.length then .refused .readAgainstContract
    else
      emitLine (.encdat offset chunk) k s fun k' t =>
        convertLoop C (BitVec.ofNat 16 (offset.toNat + chunk.length)) rest k' t

/-- `convert(A, C)` (R100): one ELA record of 0 whatever `A` is, the data records, one EOF record of 0. `C` outside 1..255 is refused
(R101). -/
def convert (A : Addr) (C : Nat) (reads : List ReadBytes) (k : Sink) (s : State) : Host.Outcome Run Fault Refusal :=
  if C = 0 ∨ Config.maxReclen < C then .refused .chunkSizeOutOfRange
  else emitLine (.encela 0x0000) k s fun k' t => convertLoop C A reads k' t

/-- `B` cut into chunks, at most `fuel` of them. -/
def chunksWithin (fuel C : Nat) (B : List Byte) : List (List Byte) :=
  match fuel, B with
  | 0, _ => []
  | _, [] => []
  | n + 1, b :: rest => (b :: rest).take C :: chunksWithin n C ((b :: rest).drop C)

/-- D19's chunk schedule: every read returns `min(C, remaining)` bytes (R101). -/
def fullChunks (C : Nat) (B : List Byte) : List (List Byte) := chunksWithin B.length C B

/-- The converter over the bytes `B` with D19's schedule and no read failure. -/
def convertBytes (A : Addr) (C : Nat) (B : List Byte) (k : Sink) (s : State) : Host.Outcome Run Fault Refusal :=
  convert A C ((fullChunks C B).map .bytes) k s

/-- `CAP` for a staging buffer of `capacity` bytes: 255 spells every capacity of 255 or more (R7, D8). -/
def capOperand (capacity : Nat) : Byte := BitVec.ofNat 8 (min capacity Config.maxReclen)

/-- What a TRKWARN action has the host emit (R48, R104). -/
def diagnosticsOf (action : Byte) : List Diagnostic :=
  if action = 0x01 then [.warning] else if action = 0x02 then [.furtherSuppressed] else []

/-- The end of a reconstruction (R104): the slice's bytes are written; nothing is written when it is empty. -/
def writeSlice (k : Sink) (ds : List Diagnostic) (s : State) : Host.Outcome Run Fault Refusal :=
  andThen (cmd .trkslice s) fun rt =>
    if completed rt.1 then
      match rt.1.drop 6 with
      | [] => .next ⟨.ok, rt.2, k, ds⟩
      | b :: bs =>
        match k.write (b :: bs) with
        | none => .next (fatalRun .fatalIo rt.2 k ds)
        | some k' => .next ⟨.ok, rt.2, k', ds⟩
    else .next (fatalRun .fatalBlock rt.2 k ds)

/-- The reconstructor's loop (R104, R105): one DECODE a line, and what its KIND asks for. Only well-formed packets are sent (R106), so a line
too long for a DECODE packet ends in a refusal (D17; log entry 9). -/
def reconstructLoop (cap : Byte) (reads : List ReadLine) (k : Sink) (ds : List Diagnostic) (s : State) :
    Host.Outcome Run Fault Refusal :=
  match reads with
  | [] => writeSlice k ds s
  | .ioFail :: _ => .next (fatalRun .fatalIo s k ds)
  | .line l :: rest =>
    if Config.maxLine < l.length then .refused .lineCannotBeSent
    else
      andThen (cmd (.decode cap l) s) fun rt =>
        if completed rt.1 = false then .next (fatalRun .fatalBlock rt.2 k ds)
        else if byteAt rt.1 1 = 0x00 then
          andThen (cmd (.trkdata (responseOffset rt.1) (responseBytes rt.1)) rt.2) fun ru =>
            if completed ru.1 then reconstructLoop cap rest k ds ru.2 else .next (fatalRun .fatalBlock ru.2 k ds)
        else if byteAt rt.1 1 = 0x01 then writeSlice k ds rt.2
        else if byteAt rt.1 1 = 0x02 ∨ byteAt rt.1 1 = 0x03 then reconstructLoop cap rest k ds rt.2
        else if byteAt rt.1 1 = 0x10 then .next (fatalRun .fatalCapacity rt.2 k ds)
        else
          andThen (cmd .trkwarn rt.2) fun ru =>
            if completed ru.1 then reconstructLoop cap rest k (ds ++ diagnosticsOf (byteAt ru.1 1)) ru.2
            else .next (fatalRun .fatalBlock ru.2 k ds)

/-- `reconstruct(CAP)` (R104); `CAP` is the open parameter `STAGING_CAP` (R7, U3). -/
def reconstruct (cap : Byte) (reads : List ReadLine) (k : Sink) (s : State) : Host.Outcome Run Fault Refusal :=
  andThen (cmd .trkinit s) fun rt =>
    if completed rt.1 then reconstructLoop cap reads k [] rt.2 else .next (fatalRun .fatalBlock rt.2 k [])

/-- The lines of a sink's bytes, each ending in its LF; what a line source that keeps terminators yields (R99). -/
def splitLines (acc : Line) (bytes : List Byte) : List Line :=
  match bytes with
  | [] => if acc = [] then [] else [acc]
  | b :: rest => if b = Config.lf then (acc ++ [b]) :: splitLines [] rest else splitLines (acc ++ [b]) rest

end Sys2Proof.Machine
end

