-- ==== Sys2Proof/Safety.lean ====
section
/-! DEFINITION. What a safe state is, in the terms the statements use: the invariants the rules keep (10_state.md R18, R20, R22;
20_memory.md R26, R35) and the running and halted states (60_exceptions.md R115). -/

namespace Sys2Proof.Machine

/-- The block is halted: `FAULT` is not 0 (R115, 00_scope.md R12). -/
abbrev State.halted (s : State) : Prop := s.faultCode ≠ 0

/-- The block runs: `FAULT` is 0 (R20). -/
abbrev State.running (s : State) : Prop := s.faultCode = 0

/-- `IMG` keeps its canonical form, inside 0x0000 to 0xFFFF (R26). -/
abbrev State.imageCanonical (s : State) : Prop := s.img.wf = true

/-- `END` never exceeds 0x10000 (R18). -/
abbrev State.endInImage (s : State) : Prop := s.endAddr.toNat ≤ 0x10000

/-- `FAULT` holds 0x00 or one of the five codes (R20). -/
abbrev State.faultLegal (s : State) : Prop := faultCodeLegal s.faultCode = true

/-- The watermarks are those of a run with no data record, or `START <= END` (R22). -/
abbrev State.watermarksOrdered (s : State) : Prop :=
  (s.startAddr = 0xFFFF ∧ s.endAddr = 0) ∨ s.startAddr.toNat ≤ s.endAddr.toNat

/-- A byte that is not 0x00 lies in the populated slice `[START, END)`: an address outside it holds 0x00 (R94, R95). -/
def State.sliceCoversImage (s : State) : Prop :=
  ∀ a : Nat, s.img.read a ≠ 0 → s.startAddr.toNat ≤ a ∧ a < s.endAddr.toNat

/-- The invariant that every step keeps. -/
structure State.Inv (s : State) : Prop where
  imageCanonical : s.imageCanonical
  endInImage : s.endInImage
  faultLegal : s.faultLegal
  watermarksOrdered : s.watermarksOrdered
  sliceCoversImage : s.sliceCoversImage

/-- The fault a command's own rule raises, if it raises one (60_exceptions.md R111, R112). -/
def ownFault : Instr → Option FaultCause
  | .hexval _ => none
  | .hexchr b => if b.toNat < 16 then none else some .operand
  | .hex2rd _ _ => none
  | .hex4rd _ _ _ _ => none
  | .hex8rd _ _ _ _ _ _ _ _ => none
  | .hex2wr _ => none
  | .ckclr => none
  | .ckadd _ => none
  | .ckget => none
  | .cktst => none
  | .encdat _ bytes => if 0 < bytes.length ∧ bytes.length < 256 then none else some .contract
  | .encela _ => none
  | .enceof _ => none
  | .decode _ _ => none
  | .trkinit => none
  | .trkdata offset bytes => if offset.toNat + bytes.length ≤ 65536 then none else some .imageOverrun
  | .trkwarn => none
  | .trkslice => none
  | .imgrd _ => none
  | .rdstat => none
  | .recData _ _ _ => none
  | .recEof _ _ => none
  | .recEsa _ _ => none
  | .recSsa _ _ => none
  | .recEla _ _ => none
  | .recSla _ _ => none
  | .recInvalid _ _ _ => none

/-- The data record a TRKDATA accepts (R92). -/
def acceptedRecord (i : Instr) : Option (Addr × List Byte) :=
  match i with
  | .trkdata offset bytes => some (offset, bytes)
  | _ => none

/-- The data records a sequence of commands accepts, in order (R97). -/
def acceptedRecords (cmds : List Instr) : List (Addr × List Byte) := cmds.filterMap acceptedRecord

/-- The address is one that the record covers. -/
def recordCovers (r : Addr × List Byte) (a : Nat) : Bool := decide (r.1.toNat ≤ a) && decide (a < r.1.toNat + r.2.length)

/-- The byte of the last record that covers the address, 0x00 if none does (R97, R35). -/
def lastCovering (records : List (Addr × List Byte)) (a : Nat) : Byte :=
  records.foldl (fun v r => if recordCovers r a then r.2.getD (a - r.1.toNat) 0 else v) 0

end Sys2Proof.Machine
end

