-- ==== Sys2Proof/Certificates/Slice0/Obligations.lean ====
section
/-! DEFINITION. The statements. `exec i s` is an instruction's own rule, which runs once the prologue has passed (60_exceptions.md R111);
the statements about `step` say when that is. A next state is written out whole where the rules fix it whole, so what such a statement does
not change is its frame. -/

open Sys2Proof Sys2Proof.Machine

/-- R120: what reset leaves, at the start and whenever the host applies it between two commands. -/
def Obligations.ResetRestoresEveryElement : Prop :=
  (State.reset.ck = 0x00 ∧ State.reset.startAddr = 0xFFFF ∧ State.reset.endAddr = 0 ∧ State.reset.warn = 0 ∧
    State.reset.faultCode = 0x00 ∧ ∀ a : Nat, State.reset.img.read a = 0x00) ∧
  ∀ (s : State) (rest : List HostAction), s.endInImage → s.faultLegal → s.port = .reset :: rest →
    ∃ t, step s = .next t ∧ t.ck = 0x00 ∧ t.startAddr = 0xFFFF ∧ t.endAddr = 0 ∧ t.warn = 0 ∧ t.faultCode = 0x00 ∧
      (∀ a : Nat, t.img.read a = 0x00) ∧ t.running

/-- The model's choice (log entry 12): reset leaves what the host will do next and the responses it holds. -/
def Obligations.ResetKeepsTheHostsSide : Prop :=
  ∀ (s t : State) (rest : List HostAction), s.port = .reset :: rest → step s = .next t →
    t.port = rest ∧ t.responses = s.responses

/-- The reset state meets the invariant of `EveryStepKeepsTheInvariant` (R18, R20, R22, R26). -/
def Obligations.ResetStateMeetsTheInvariant : Prop := State.reset.Inv

/-- From EVERY state that meets it, a step keeps: the image's canonical form inside 0x0000 to 0xFFFF (R26), END at most 0x10000 (R18), FAULT
one of its legal values (R20), the watermarks those of an empty run or START <= END (R22), and no byte but 0x00 outside [START, END). -/
def Obligations.EveryStepKeepsTheInvariant : Prop := ∀ s t : State, s.Inv → step s = .next t → t.Inv

/-- Decoding a well-formed command's packet gives the command back, with every operand (R44, R45). -/
def Obligations.CommandPacketsDecodeToTheirCommands : Prop :=
  ∀ i : Instr, i.wf = true → i.isRecord = false → decodePacket (encode i) = .ok i

/-- A packet that decodes is the packet of the one well-formed command it decodes to (R44, R45). -/
def Obligations.DecodedCommandsEncodeToTheirPacket : Prop :=
  ∀ (p : Packet) (i : Instr), decodePacket p = .ok i → encode i = p ∧ i.wf = true ∧ i.isRecord = false

/-- The line of a well-formed record decodes to its row with every field (R39, R43); a data row carries DECODE's capacity operand. -/
def Obligations.RecordLinesDecodeToTheirRows : Prop :=
  ∀ (cap : Byte) (i : Instr), i.wf = true → i.isRecord = true → (∀ c o d, i = .recData c o d → c = cap) →
    decodeLine cap (encode i) = .ok i

/-- Words written out from R44 and R45, one for each packet format, and a record line from R39. -/
def Obligations.SampleEncodingsDecode : Prop :=
  decodePacket [0x13] = .ok .cktst ∧ decodePacket [0x11, 0xF7] = .ok (.ckadd 0xF7) ∧
  decodePacket [0x44, 0x12, 0x34] = .ok (.imgrd 0x1234) ∧ decodePacket [0x03, 0x46, 0x37] = .ok (.hex2rd 0x46 0x37) ∧
  decodePacket [0x04, 0x31, 0x41, 0x32, 0x62] = .ok (.hex4rd 0x31 0x41 0x32 0x62) ∧
  decodePacket [0x05, 0x44, 0x45, 0x41, 0x44, 0x62, 0x65, 0x65, 0x66] =
    .ok (.hex8rd 0x44 0x45 0x41 0x44 0x62 0x65 0x65 0x66) ∧
  decodePacket [0x20, 0x12, 0x34, 0x01, 0xAB] = .ok (.encdat 0x1234 [0xAB]) ∧
  decodePacket [0x30, 0x05, 0x00, 0x02, 0x78, 0x0A] = .ok (.decode 0x05 [0x78, 0x0A]) ∧
  decodeLine 0xFF [0x3A, 0x30, 0x30, 0x31, 0x32, 0x33, 0x34, 0x30, 0x31, 0x42, 0x39, 0x0A] = .ok (.recEof 0x1234 [])

/-- R111, its passing path: in a running block, a packet that decodes to a command is taken from the port and the command's own rule runs. -/
def Obligations.StepRunsTheDecodedCommand : Prop :=
  ∀ (s : State) (p : Packet) (rest : List HostAction) (i : Instr), s.endInImage → s.running → s.port = .command p :: rest →
    decodePacket p = .ok i → step s = exec i { s with port := rest }

/-- R49: every illegal encoding raises its fault: an empty packet, an opcode outside the map (whatever the length), a length other than
the format's, HEXCHR's reserved bits. -/
def Obligations.IllegalEncodingsRaiseTheirFaults : Prop :=
  ∀ (s : State) (p : Packet) (rest : List HostAction), s.endInImage → s.running → s.port = .command p :: rest →
    let faults (code : Byte) : Prop :=
      step s = .next { s with port := rest, faultCode := code, responses := s.responses ++ [[code]] }
    (p = [] → faults 0xE2) ∧
    (∀ op, p.head? = some op →
      (op ∉ ([0x01, 0x02, 0x03, 0x04, 0x05, 0x06, 0x10, 0x11, 0x12, 0x13, 0x20, 0x21, 0x22, 0x30, 0x40, 0x41, 0x42, 0x43, 0x44,
        0x45] : List Byte) → faults 0xE1) ∧
      (op ∈ ([0x10, 0x12, 0x13, 0x40, 0x42, 0x43, 0x45] : List Byte) → p.length ≠ 1 → faults 0xE2) ∧
      (op ∈ ([0x01, 0x02, 0x06, 0x11] : List Byte) → p.length ≠ 2 → faults 0xE2) ∧
      (op ∈ ([0x03, 0x21, 0x22, 0x44] : List Byte) → p.length ≠ 3 → faults 0xE2) ∧
      (op = 0x04 → p.length ≠ 5 → faults 0xE2) ∧
      (op = 0x05 → p.length ≠ 9 → faults 0xE2) ∧
      (op ∈ ([0x20, 0x41] : List Byte) → (p.length < 4 ∨ p.length ≠ 4 + (p.getD 3 0).toNat) → faults 0xE2) ∧
      (op = 0x30 → (p.length < 4 ∨ p.length ≠ 4 + ((p.getD 2 0).toNat * 256 + (p.getD 3 0).toNat)) → faults 0xE2)) ∧
    (∀ b : Byte, p = [0x02, b] → 16 ≤ b.toNat → faults 0xE3)

/-- R115: while halted, every command answers [FAULT] and changes nothing; reset clears FAULT; no other step from a halted state leaves it
running. -/
def Obligations.HaltedBlockOnlyAnswersUntilReset : Prop :=
  (∀ (s : State) (p : Packet) (rest : List HostAction), s.endInImage → s.faultLegal → s.halted → s.port = .command p :: rest →
    step s = .next { s with port := rest, responses := s.responses ++ [[s.faultCode]] }) ∧
  (∀ (s : State) (rest : List HostAction), s.endInImage → s.faultLegal → s.port = .reset :: rest →
    ∃ t, step s = .next t ∧ t.running) ∧
  (∀ s t : State, s.halted → step s = .next t → t.running → ∃ rest, s.port = .reset :: rest)

/-- R114: a step that halts a running block took a command whose only state effect is FAULT, answered by that one byte. -/
def Obligations.FaultEntryIsPrecise : Prop :=
  ∀ s t : State, s.running → step s = .next t → t.halted →
    ∃ (p : Packet) (rest : List HostAction) (code : Byte), s.port = .command p :: rest ∧
      code ∈ ([0xE1, 0xE2, 0xE3, 0xE4, 0xE5] : List Byte) ∧
      t = { s with port := rest, faultCode := code, responses := s.responses ++ [[code]] }

/-- R112: each code has its one cause, and no other code arises. (`decodePacket` gives the prologue's two causes; what packets they are is
`IllegalEncodingsRaiseTheirFaults`.) -/
def Obligations.FaultCodesHaveTheirCauses : Prop :=
  ∀ (s t : State) (p : Packet) (rest : List HostAction), s.running → s.port = .command p :: rest → step s = .next t →
    (t.faultCode = 0xE1 ↔ decodePacket p = .error .illegalOpcode) ∧
    (t.faultCode = 0xE2 ↔ decodePacket p = .error .malformedPacket) ∧
    (t.faultCode = 0xE3 ↔ ∃ b : Byte, decodePacket p = .ok (.hexchr b) ∧ 16 ≤ b.toNat) ∧
    (t.faultCode = 0xE4 ↔ ∃ o : Addr, decodePacket p = .ok (.encdat o [])) ∧
    (t.faultCode = 0xE5 ↔ ∃ (o : Addr) (b : List Byte), decodePacket p = .ok (.trkdata o b) ∧ 65536 < o.toNat + b.length) ∧
    (t.faultCode = 0x00 ∨ t.faultCode ∈ ([0xE1, 0xE2, 0xE3, 0xE4, 0xE5] : List Byte))

/-- R46: every command packet, legal or not, is answered by exactly one response, whose status byte is 0x00 or which is one fault code. -/
def Obligations.EveryCommandIsAnsweredOnce : Prop :=
  ∀ (s : State) (p : Packet) (rest : List HostAction), s.endInImage → s.faultLegal → s.port = .command p :: rest →
    ∃ (t : State) (r : Packet), step s = .next t ∧ t.port = rest ∧ t.responses = s.responses ++ [r] ∧
      ((∃ body, r = 0x00 :: body) ∨
        (r = [t.faultCode] ∧ t.faultCode ∈ ([0xE1, 0xE2, 0xE3, 0xE4, 0xE5] : List Byte)))

/-- With no action pending the block keeps all its state (R119 "All state is kept while idle"; that the model takes a step there is log
entry 3). -/
def Obligations.IdleBlockKeepsItsState : Prop :=
  ∀ s : State, s.endInImage → s.faultLegal → s.port = [] → step s = .next s

/-- 93_implementation_defined.md U16, as log entry 5 reads it: a state that no run reaches has no step, whatever the host does. -/
def Obligations.UnreachableStatesHaveNoStep : Prop :=
  (∀ s : State, 0x10000 < s.endAddr.toNat → step s = .fault .endBeyondImage ∧ exec .trkslice s = .fault .endBeyondImage) ∧
  (∀ s : State, s.endInImage → s.faultCode ∉ ([0x00, 0xE1, 0xE2, 0xE3, 0xE4, 0xE5] : List Byte) →
    step s = .fault .faultCodeIllegal)

/-- R16 to R21, their "written by" lines over all instructions: each element changes only under the commands listed for it, and an image
byte only under TRKINIT or where a TRKDATA stores. -/
def Obligations.OnlyListedCommandsWriteEachElement : Prop :=
  ∀ (i : Instr) (s t : State), s.imageCanonical → exec i s = .next t →
    (t.ck ≠ s.ck → i = .ckclr ∨ ∃ b, i = .ckadd b) ∧
    (t.startAddr ≠ s.startAddr ∨ t.endAddr ≠ s.endAddr → i = .trkinit ∨ ∃ o b, i = .trkdata o b) ∧
    (t.warn ≠ s.warn → i = .trkinit ∨ i = .trkwarn) ∧
    (t.faultCode ≠ s.faultCode → (∃ b, i = .hexchr b) ∨ (∃ o b, i = .encdat o b) ∨ ∃ o b, i = .trkdata o b) ∧
    (∀ a : Nat, t.img.read a ≠ s.img.read a →
      i = .trkinit ∨ ∃ o b, i = .trkdata o b ∧ o.toNat ≤ a ∧ a < o.toNat + b.length) ∧
    t.port = s.port

/-- R16: no command but CKADD, CKGET, CKTST and RDSTAT reads CK, the encoder and decoder commands included. -/
def Obligations.NoOtherCommandReadsCk : Prop :=
  ∀ (i : Instr) (s t : State) (c : BitVec 8), (∀ b, i ≠ .ckadd b) → i ≠ .ckget → i ≠ .cktst → i ≠ .rdstat → exec i s = .next t →
    ∃ u, exec i { s with ck := c } = .next u ∧ u.responses = t.responses ∧ u.startAddr = t.startAddr ∧ u.endAddr = t.endAddr ∧
      u.warn = t.warn ∧ u.faultCode = t.faultCode ∧ u.img = t.img ∧ u.port = t.port ∧ (i = .ckclr ∨ u.ck = c)

/-- R93: no command other than TRKWARN and RDSTAT reads WARN. -/
def Obligations.NoOtherCommandReadsWarn : Prop :=
  ∀ (i : Instr) (s t : State) (w : BitVec 32), i ≠ .trkwarn → i ≠ .rdstat → exec i s = .next t →
    ∃ u, exec i { s with warn := w } = .next u ∧ u.responses = t.responses ∧ u.startAddr = t.startAddr ∧ u.endAddr = t.endAddr ∧
      u.ck = t.ck ∧ u.faultCode = t.faultCode ∧ u.img = t.img ∧ u.port = t.port ∧ (i = .trkinit ∨ u.warn = w)

/-- R53: the value of every character. -/
def Obligations.HexvalMapsEveryCharacter : Prop :=
  ∀ c : Byte,
    (0x30 ≤ c.toNat ∧ c.toNat ≤ 0x39 → (hexval c).toNat = c.toNat - 0x30) ∧
    (0x41 ≤ c.toNat ∧ c.toNat ≤ 0x46 → (hexval c).toNat = c.toNat - 0x41 + 10) ∧
    (0x61 ≤ c.toNat ∧ c.toNat ≤ 0x66 → (hexval c).toNat = c.toNat - 0x61 + 10) ∧
    (¬(0x30 ≤ c.toNat ∧ c.toNat ≤ 0x39) → ¬(0x41 ≤ c.toNat ∧ c.toNat ≤ 0x46) → ¬(0x61 ≤ c.toNat ∧ c.toNat ≤ 0x66) →
      hexval c = 0)

/-- R54: HEXVAL's packet, response and frame. -/
def Obligations.HexvalAnswersTheNibble : Prop :=
  ∀ (c : Byte) (s : State), decodePacket [0x01, c] = .ok (.hexval c) ∧
    exec (.hexval c) s = .next { s with responses := s.responses ++ [[0x00, BitVec.ofNat 8 (hexval c).toNat]] }

/-- R55: HEXCHR's packet, the uppercase character, and the OPERAND fault on bits 7:4. -/
def Obligations.HexchrAnswersTheCharacterOrFaults : Prop :=
  ∀ (b : Byte) (s : State), decodePacket [0x02, b] = .ok (.hexchr b) ∧
    (b.toNat ≤ 9 →
      exec (.hexchr b) s = .next { s with responses := s.responses ++ [[0x00, BitVec.ofNat 8 (0x30 + b.toNat)]] }) ∧
    (10 ≤ b.toNat ∧ b.toNat ≤ 15 →
      exec (.hexchr b) s = .next { s with responses := s.responses ++ [[0x00, BitVec.ofNat 8 (0x41 + (b.toNat - 10))]] }) ∧
    (16 ≤ b.toNat →
      exec (.hexchr b) s = .next { s with faultCode := 0xE3, responses := s.responses ++ [[0xE3]] })

/-- R57, R58, R59: the value of 2, 4 and 8 characters, most significant nibble first (R56), as big-endian bytes. -/
def Obligations.HexReadsAnswerTheirValues : Prop :=
  ∀ (c0 c1 c2 c3 c4 c5 c6 c7 : Byte) (s : State),
    let v2 := (hexval c0).toNat * 16 + (hexval c1).toNat
    let v4 := v2 * 256 + (hexval c2).toNat * 16 + (hexval c3).toNat
    let v8 := v4 * 65536 + (hexval c4).toNat * 4096 + (hexval c5).toNat * 256 + (hexval c6).toNat * 16 + (hexval c7).toNat
    (decodePacket [0x03, c0, c1] = .ok (.hex2rd c0 c1) ∧
      exec (.hex2rd c0 c1) s = .next { s with responses := s.responses ++ [[0x00, BitVec.ofNat 8 v2]] }) ∧
    (decodePacket [0x04, c0, c1, c2, c3] = .ok (.hex4rd c0 c1 c2 c3) ∧
      exec (.hex4rd c0 c1 c2 c3) s =
        .next { s with responses := s.responses ++ [[0x00, BitVec.ofNat 8 (v4 / 256), BitVec.ofNat 8 v4]] }) ∧
    (decodePacket [0x05, c0, c1, c2, c3, c4, c5, c6, c7] = .ok (.hex8rd c0 c1 c2 c3 c4 c5 c6 c7) ∧
      exec (.hex8rd c0 c1 c2 c3 c4 c5 c6 c7) s =
        .next { s with responses := s.responses ++ [[0x00, BitVec.ofNat 8 (v8 / 16777216), BitVec.ofNat 8 (v8 / 65536),
          BitVec.ofNat 8 (v8 / 256), BitVec.ofNat 8 v8]] })

/-- R60, R61: the two uppercase characters of a byte, the high nibble first, a leading zero always written. -/
def Obligations.Hex2wrAnswersTwoCharacters : Prop :=
  ∀ (b : Byte) (s : State),
    let digit (n : Nat) : Byte := if n ≤ 9 then BitVec.ofNat 8 (0x30 + n) else BitVec.ofNat 8 (0x41 + (n - 10))
    decodePacket [0x06, b] = .ok (.hex2wr b) ∧ wrhex2 b = [digit (b.toNat / 16), digit (b.toNat % 16)] ∧
    exec (.hex2wr b) s =
      .next { s with responses := s.responses ++ [[0x00, digit (b.toNat / 16), digit (b.toNat % 16)]] }

/-- R62: the four laws of the codec functions. -/
def Obligations.CodecFunctionsObeyTheirLaws : Prop :=
  (∀ n : BitVec 4, hexval (hexchr n) = n) ∧
  (∀ c : Byte, 0x61 ≤ c.toNat ∧ c.toNat ≤ 0x66 → hexval c = hexval (c - 0x20)) ∧
  (∀ b : Byte, rdhex (wrhex2 b) 0 2 = b.toNat) ∧
  (∀ c : Byte,
    (hexchr (hexval c) = c ↔ (0x30 ≤ c.toNat ∧ c.toNat ≤ 0x39) ∨ (0x41 ≤ c.toNat ∧ c.toNat ≤ 0x46)) ∧
    (0x61 ≤ c.toNat ∧ c.toNat ≤ 0x66 → hexchr (hexval c) = c - 0x20) ∧
    (¬(0x30 ≤ c.toNat ∧ c.toNat ≤ 0x39) → ¬(0x41 ≤ c.toNat ∧ c.toNat ≤ 0x46) → ¬(0x61 ≤ c.toNat ∧ c.toNat ≤ 0x66) →
      hexchr (hexval c) = 0x30))

/-- R63: the checksum is the two's complement of the sum, and it is the one byte that brings the sum to 0 mod 256. -/
def Obligations.ChecksumIsTheOneBalancingByte : Prop :=
  (∀ bytes : List Byte, (checksum bytes).toNat = (256 - (bytes.map BitVec.toNat).sum % 256) % 256) ∧
  (∀ (bytes : List Byte) (c : Byte), ((bytes ++ [c]).map BitVec.toNat).sum % 256 = 0 ↔ c = checksum bytes)

/-- R64, R65: CKCLR and CKADD write CK alone and answer [0x00]; the sum wraps. -/
def Obligations.CkclrAndCkaddUpdateCk : Prop :=
  ∀ (b : Byte) (s : State),
    (decodePacket [0x10] = .ok .ckclr ∧
      exec .ckclr s = .next { s with ck := 0x00, responses := s.responses ++ [[0x00]] }) ∧
    (decodePacket [0x11, b] = .ok (.ckadd b) ∧
      exec (.ckadd b) s =
        .next { s with ck := BitVec.ofNat 8 ((s.ck.toNat + b.toNat) % 256), responses := s.responses ++ [[0x00]] })

/-- R66, R67: CKGET answers the two's complement of CK, which is the checksum of the bytes CK is the sum of; CKTST answers whether CK is
zero; CK is unchanged. -/
def Obligations.CkgetAndCktstAnswerFromCk : Prop :=
  ∀ s : State,
    (decodePacket [0x12] = .ok .ckget ∧
      exec .ckget s = .next { s with responses := s.responses ++ [[0x00, BitVec.ofNat 8 ((256 - s.ck.toNat) % 256)]] } ∧
      ∀ bytes : List Byte, s.ck.toNat = (bytes.map BitVec.toNat).sum % 256 →
        exec .ckget s = .next { s with responses := s.responses ++ [[0x00, checksum bytes]] }) ∧
    (decodePacket [0x13] = .ok .cktst ∧
      exec .cktst s = .next { s with responses := s.responses ++ [[0x00, if s.ck = 0x00 then 0x01 else 0x00]] })

/-- R52 with R63 to R67: CKSUM over any bytes answers their checksum and CKVERIFY whether their sum is 0 mod 256, from any running state;
CK is left at the sum and nothing else of the block changes. -/
def Obligations.PseudoCommandsComputeTheChecksum : Prop :=
  ∀ (bytes : List Byte) (s : State), s.endInImage → s.running →
    let sum := (bytes.map BitVec.toNat).sum % 256
    let left (t : State) : Prop := t.ck.toNat = sum ∧ t.startAddr = s.startAddr ∧ t.endAddr = s.endAddr ∧ t.warn = s.warn ∧
      t.faultCode = s.faultCode ∧ t.img = s.img ∧ t.port = s.port
    (∃ t, cksum bytes s = .next ([0x00, checksum bytes], t) ∧ left t) ∧
    (∃ t, ckverify bytes s = .next ([0x00, if sum = 0 then 0x01 else 0x00], t) ∧ left t)

/-- R68: the order of the bytes and a zero byte do not matter to the sum mod 256; one byte changed, in one nibble or both, changes the sum by
as much as the byte changed, and the sum mod 256 always. -/
def Obligations.ChecksumArithmeticLaws : Prop :=
  (∀ bs cs : List Byte, bs.Perm cs → byteSum bs % 256 = byteSum cs % 256) ∧
  (∀ bs cs : List Byte, byteSum (bs ++ [0x00] ++ cs) % 256 = byteSum (bs ++ cs) % 256) ∧
  (∀ (bs cs : List Byte) (b c : Byte), byteSum (bs ++ [b] ++ cs) + c.toNat = byteSum (bs ++ [c] ++ cs) + b.toNat ∧
    (b ≠ c → byteSum (bs ++ [b] ++ cs) % 256 ≠ byteSum (bs ++ [c] ++ cs) % 256))

/-- R70: the length and the characters of every line the line builder makes, and that it is a record with a correct checksum when the
header's first byte is the payload's length. -/
def Obligations.BuiltLinesAreRecords : Prop :=
  ∀ (h0 h1 h2 h3 : Byte) (payload : List Byte),
    let line := encline [h0, h1, h2, h3] payload
    line.length = 12 + 2 * payload.length ∧ line.getD 0 0 = 0x3A ∧ line.getD (11 + 2 * payload.length) 0 = 0x0A ∧
    (∀ i, 1 ≤ i → i ≤ 10 + 2 * payload.length →
      (0x30 ≤ (line.getD i 0).toNat ∧ (line.getD i 0).toNat ≤ 0x39) ∨ (0x41 ≤ (line.getD i 0).toNat ∧ (line.getD i 0).toNat ≤ 0x46)) ∧
    (h0.toNat = payload.length → readRecord line = .ok ⟨h3, fromBe16 h1 h2, payload⟩)

/-- R72, R71: ENCDAT's packet, its line for 1 to 255 bytes, and the CONTRACT fault for none. -/
def Obligations.EncdatAnswersTheDataRecordLine : Prop :=
  ∀ (offset : Addr) (bytes : List Byte) (s : State),
    let hi := BitVec.ofNat 8 (offset.toNat / 256)
    let lo := BitVec.ofNat 8 offset.toNat
    let n := BitVec.ofNat 8 bytes.length
    let line := encline [n, hi, lo, 0x00] bytes
    (bytes.length ≤ 255 → decodePacket ([0x20, hi, lo, n] ++ bytes) = .ok (.encdat offset bytes)) ∧
    (0 < bytes.length ∧ bytes.length < 256 →
      line.length = 12 + 2 * bytes.length ∧
      exec (.encdat offset bytes) s = .next { s with responses := s.responses ++
        [[0x00, BitVec.ofNat 8 (line.length / 256), BitVec.ofNat 8 line.length] ++ line] }) ∧
    (bytes = [] → exec (.encdat offset bytes) s = .next { s with faultCode := 0xE4, responses := s.responses ++ [[0xE4]] })

/-- R73, R74: ENCELA's and ENCEOF's packets and lines. -/
def Obligations.EncelaAndEnceofAnswerTheirLines : Prop :=
  ∀ (w : Addr) (s : State),
    let hi := BitVec.ofNat 8 (w.toNat / 256)
    let lo := BitVec.ofNat 8 w.toNat
    (decodePacket [0x21, hi, lo] = .ok (.encela w) ∧
      exec (.encela w) s = .next { s with responses := s.responses ++
        [[0x00, 0x00, 16] ++ encline [0x02, 0x00, 0x00, 0x04] [hi, lo]] }) ∧
    (decodePacket [0x22, hi, lo] = .ok (.enceof w) ∧
      exec (.enceof w) s = .next { s with responses := s.responses ++
        [[0x00, 0x00, 12] ++ encline [0x00, hi, lo, 0x01] []] })

/-- R75: every encoder output decodes back to the record it encodes, for every capacity that holds its data. -/
def Obligations.EncoderOutputDecodesBack : Prop :=
  ∀ (offset : Addr) (bytes : List Byte) (cap : Byte) (s : State),
    (0 < bytes.length → bytes.length < 256 → bytes.length ≤ cap.toNat →
      ∃ t, exec (.encdat offset bytes) s = .next t ∧
        decodeRecordLine (t.lastResponse.drop 3) cap = .data offset bytes) ∧
    (∃ t, exec (.encela offset) s = .next t ∧
      decodeRecordLine (t.lastResponse.drop 3) cap = .extendedLinearAddress offset) ∧
    (∃ t, exec (.enceof offset) s = .next t ∧ decodeRecordLine (t.lastResponse.drop 3) cap = .endOfFile offset)

/-- R76 with R79 to R85: the steps of `decode` in order, each deciding for every line that passed the ones before it. -/
def Obligations.DecodeStepsDecideInOrder : Prop :=
  ∀ (line : Line) (cap : Byte),
    let L := line.length
    let n := rdhex line 1 2
    let offset : Addr := BitVec.ofNat 16 (rdhex line 3 4)
    let rectype := rdhex line 7 2
    let t := line.getD (11 + 2 * n) 0
    let sum := ((List.range (n + 5)).map fun k => rdhex line (1 + 2 * k) 2).sum
    let d (i : Nat) : Byte := BitVec.ofNat 8 (rdhex line (9 + 2 * i) 2)
    let result := decodeRecordLine line cap
    (line.head? ≠ some 0x3A → result = .notARecord) ∧
    (line.head? = some 0x3A →
      (L < 11 → result = .invalidFormat) ∧
      (11 ≤ L → L < 12 + 2 * n → result = .invalidFormat) ∧
      (12 + 2 * n ≤ L →
        (t ≠ 0x0A ∧ t ≠ 0x0D → result = .invalidFormat) ∧
        (t = 0x0A ∨ t = 0x0D →
          (sum % 256 ≠ 0 → result = .invalidFormat) ∧
          (sum % 256 = 0 →
            (rectype = 0x00 → cap.toNat < n → result = .bufferTooSmall) ∧
            (rectype = 0x00 → n ≤ cap.toNat → result = .data offset ((List.range n).map d)) ∧
            (rectype = 0x01 → n ≠ 0 → result = .invalidFormat) ∧
            (rectype = 0x01 → n = 0 → result = .endOfFile offset) ∧
            (rectype = 0x02 → n ≠ 2 ∨ offset ≠ 0 → result = .notARecord) ∧
            (rectype = 0x02 → n = 2 ∧ offset = 0 → result = .ignorable) ∧
            (rectype = 0x03 → n ≠ 4 ∨ offset ≠ 0 → result = .notARecord) ∧
            (rectype = 0x03 → n = 4 ∧ offset = 0 → result = .ignorable) ∧
            (rectype = 0x04 → n ≠ 2 ∨ offset ≠ 0 → result = .notARecord) ∧
            (rectype = 0x04 → n = 2 ∧ offset = 0 →
              result = .extendedLinearAddress (BitVec.ofNat 16 ((d 0).toNat * 256 + (d 1).toNat))) ∧
            (rectype = 0x05 → n ≠ 4 ∨ offset ≠ 0 → result = .notARecord) ∧
            (rectype = 0x05 → n = 4 ∧ offset = 0 → result = .ignorable) ∧
            (6 ≤ rectype → result = .invalidFormat)))))

/-- R78, R47: DECODE's packet, and the response for each of the seven results; nothing else of the state changes. -/
def Obligations.DecodeAnswersItsResult : Prop :=
  ∀ (cap : Byte) (line : Line) (s : State),
    (line.length ≤ 65535 →
      decodePacket ([0x30, cap, BitVec.ofNat 8 (line.length / 256), BitVec.ofNat 8 line.length] ++ line) = .ok (.decode cap line)) ∧
    exec (.decode cap line) s = .next { s with responses := s.responses ++ [
      match decodeRecordLine line cap with
      | .data offset bytes =>
        [0x00, 0x00, BitVec.ofNat 8 (offset.toNat / 256), BitVec.ofNat 8 offset.toNat, BitVec.ofNat 8 bytes.length] ++ bytes
      | .endOfFile start => [0x00, 0x01, BitVec.ofNat 8 (start.toNat / 256), BitVec.ofNat 8 start.toNat]
      | .extendedLinearAddress value => [0x00, 0x02, BitVec.ofNat 8 (value.toNat / 256), BitVec.ofNat 8 value.toNat]
      | .ignorable => [0x00, 0x03]
      | .bufferTooSmall => [0x00, 0x10]
      | .invalidFormat => [0x00, 0x11]
      | .notARecord => [0x00, 0x12]] }

/-- R79 to R85: each record row on its own, answered as R47 encodes the classification. `data` is the record's data, `reclen` its length. -/
def Obligations.RecordRowsAnswerTheirClassification : Prop :=
  ∀ (cap rectype : Byte) (offset : Addr) (data : List Byte) (s : State),
    let hi := BitVec.ofNat 8 (offset.toNat / 256)
    let lo := BitVec.ofNat 8 offset.toNat
    let answers (i : Instr) (r : Packet) : Prop := exec i s = .next { s with responses := s.responses ++ [r] }
    (cap.toNat < data.length → answers (.recData cap offset data) [0x00, 0x10]) ∧
    (data.length ≤ cap.toNat →
      answers (.recData cap offset data) ([0x00, 0x00, hi, lo, BitVec.ofNat 8 data.length] ++ data)) ∧
    (data ≠ [] → answers (.recEof offset data) [0x00, 0x11]) ∧
    (data = [] → answers (.recEof offset data) [0x00, 0x01, hi, lo]) ∧
    (data.length ≠ 2 ∨ offset ≠ 0 → answers (.recEsa offset data) [0x00, 0x12]) ∧
    (data.length = 2 ∧ offset = 0 → answers (.recEsa offset data) [0x00, 0x03]) ∧
    (data.length ≠ 4 ∨ offset ≠ 0 → answers (.recSsa offset data) [0x00, 0x12]) ∧
    (data.length = 4 ∧ offset = 0 → answers (.recSsa offset data) [0x00, 0x03]) ∧
    (data.length ≠ 2 ∨ offset ≠ 0 → answers (.recEla offset data) [0x00, 0x12]) ∧
    (∀ d0 d1 : Byte, data = [d0, d1] → offset = 0 → answers (.recEla offset data) [0x00, 0x02, d0, d1]) ∧
    (data.length ≠ 4 ∨ offset ≠ 0 → answers (.recSla offset data) [0x00, 0x12]) ∧
    (data.length = 4 ∧ offset = 0 → answers (.recSla offset data) [0x00, 0x03]) ∧
    answers (.recInvalid rectype offset data) [0x00, 0x11]

/-- DECODE of a line that carries a record runs exactly the record's row (R76 step 7, R43; that the rows are instructions of the model is
log entry 4). -/
def Obligations.DecodeRunsTheRowOfItsRecord : Prop :=
  ∀ (cap : Byte) (line : Line) (i : Instr) (s : State), decodeLine cap line = .ok i → exec (.decode cap line) s = exec i s

/-- R86: `decode` depends on the characters up to the terminator and on the three length tests alone, so its first 522 bytes decide. -/
def Obligations.DecodeReadsOnlyTheLineWindow : Prop :=
  (∀ (line line' : Line) (cap : Byte),
    (∀ j, j ≤ 11 + 2 * rdhex line 1 2 → line.getD j 0 = line'.getD j 0) →
    (line.length = 0 ↔ line'.length = 0) → (line.length < 11 ↔ line'.length < 11) →
    (line.length < 12 + 2 * rdhex line 1 2 ↔ line'.length < 12 + 2 * rdhex line 1 2) →
    decodeRecordLine line cap = decodeRecordLine line' cap) ∧
  (∀ (line : Line) (cap : Byte), decodeRecordLine line cap = decodeRecordLine (line.take 522) cap)

/-- R87: LF and CR both terminate, no other character does; what comes after is not examined; a record without terminator is
InvalidFormat. -/
def Obligations.TerminatorsAndTrailingCharacters : Prop :=
  ∀ (line : Line) (cap : Byte),
    let n := rdhex line 1 2
    (12 + 2 * n ≤ line.length →
      decodeRecordLine (line.set (11 + 2 * n) 0x0A) cap = decodeRecordLine (line.set (11 + 2 * n) 0x0D) cap ∧
      (∀ c : Byte, c ≠ 0x0A → c ≠ 0x0D → line.head? = some 0x3A →
        decodeRecordLine (line.set (11 + 2 * n) c) cap = .invalidFormat) ∧
      (∀ after : Line, decodeRecordLine (line.take (12 + 2 * n) ++ after) cap = decodeRecordLine line cap)) ∧
    (line.head? = some 0x3A → line.length = 11 + 2 * n → decodeRecordLine line cap = .invalidFormat)

/-- R88, R42: a character of a field counts by its hex value alone, so a character that is no hex digit decodes as '0' does, and either case
of a letter decodes alike. -/
def Obligations.FieldCharactersCountByTheirHexValue : Prop :=
  ∀ (line : Line) (cap c : Byte) (i : Nat), 1 ≤ i → i ≤ 10 + 2 * rdhex line 1 2 → hexval c = hexval (line.getD i 0) →
    decodeRecordLine (line.set i c) cap = decodeRecordLine line cap

/-- R89: in an encoder's line, one hex digit replaced by a hex digit of a different value gives InvalidFormat; of the same value, the same
result. -/
def Obligations.OneChangedDigitIsRejected : Prop :=
  ∀ (h1 h2 h3 c cap : Byte) (payload : List Byte) (i : Nat), payload.length < 256 → 1 ≤ i → i ≤ 10 + 2 * payload.length →
    ((0x30 ≤ c.toNat ∧ c.toNat ≤ 0x39) ∨ (0x41 ≤ c.toNat ∧ c.toNat ≤ 0x46) ∨ (0x61 ≤ c.toNat ∧ c.toNat ≤ 0x66)) →
    let line := encline [BitVec.ofNat 8 payload.length, h1, h2, h3] payload
    (hexval c ≠ hexval (line.getD i 0) → decodeRecordLine (line.set i c) cap = .invalidFormat) ∧
    (hexval c = hexval (line.getD i 0) → decodeRecordLine (line.set i c) cap = decodeRecordLine line cap)

/-- R91: TRKINIT clears the tracker and keeps CK and FAULT; it is idempotent, and right after reset it changes nothing. -/
def Obligations.TrkinitStartsARun : Prop :=
  decodePacket [0x40] = .ok .trkinit ∧
  (∀ s : State, ∃ t, exec .trkinit s = .next t ∧ t.startAddr = 0xFFFF ∧ t.endAddr = 0 ∧ t.warn = 0 ∧
    (∀ a : Nat, t.img.read a = 0x00) ∧ t.ck = s.ck ∧ t.faultCode = s.faultCode ∧ t.port = s.port ∧
    t.responses = s.responses ++ [[0x00]] ∧
    exec .trkinit t = .next { t with responses := t.responses ++ [[0x00]] }) ∧
  exec .trkinit State.reset = .next { State.reset with responses := [[0x00]] }

/-- R92: TRKDATA copies the bytes, widens the watermarks and leaves every other byte and element; past 0xFFFF it faults and writes nothing. -/
def Obligations.TrkdataCopiesAndWidens : Prop :=
  ∀ (offset : Addr) (bytes : List Byte) (s : State), s.imageCanonical →
    (bytes.length ≤ 255 → decodePacket ([0x41, BitVec.ofNat 8 (offset.toNat / 256), BitVec.ofNat 8 offset.toNat,
      BitVec.ofNat 8 bytes.length] ++ bytes) = .ok (.trkdata offset bytes)) ∧
    (offset.toNat + bytes.length ≤ 65536 →
      ∃ t, exec (.trkdata offset bytes) s = .next t ∧
        (∀ i, i < bytes.length → t.img.read (offset.toNat + i) = bytes.getD i 0) ∧
        (∀ a : Nat, a < offset.toNat ∨ offset.toNat + bytes.length ≤ a → t.img.read a = s.img.read a) ∧
        t.startAddr.toNat = min s.startAddr.toNat offset.toNat ∧
        t.endAddr.toNat = max s.endAddr.toNat (offset.toNat + bytes.length) ∧
        t.ck = s.ck ∧ t.warn = s.warn ∧ t.faultCode = s.faultCode ∧ t.port = s.port ∧
        t.responses = s.responses ++ [[0x00]]) ∧
    (65536 < offset.toNat + bytes.length →
      exec (.trkdata offset bytes) s = .next { s with faultCode := 0xE5, responses := s.responses ++ [[0xE5]] })

/-- R93: TRKWARN's action comes from the count before the increment, and the count saturates. -/
def Obligations.TrkwarnCountsAndPicksItsAction : Prop :=
  decodePacket [0x42] = .ok .trkwarn ∧
  ∀ s : State,
    let counts (action : Byte) : Prop := exec .trkwarn s = .next { s with
      warn := BitVec.ofNat 32 (min (s.warn.toNat + 1) 0xFFFFFFFF), responses := s.responses ++ [[0x00, action]] }
    (s.warn.toNat < 10 → counts 0x01) ∧ (s.warn.toNat = 10 → counts 0x02) ∧ (10 < s.warn.toNat → counts 0x00)

/-- R93's corner cases: after TRKINIT, TRKWARN calls 1 to 10 give DIAG, call 11 gives NOTICE, every later call gives NONE, also once WARN has
saturated. -/
def Obligations.RepeatedWarningsAreCapped : Prop :=
  ∀ (k : Nat) (s : State), s.endInImage → s.running →
    ∃ t, cmdAll [] ([.trkinit] ++ List.replicate (k + 1) .trkwarn) s =
      .next ([0x00, if k < 10 then 0x01 else if k = 10 then 0x02 else 0x00], t) ∧ t.warn.toNat = min (k + 1) 0xFFFFFFFF

/-- R94: TRKSLICE answers START, the slice's length (0 when START > END) and its bytes, and changes nothing. -/
def Obligations.TrksliceAnswersTheSlice : Prop :=
  decodePacket [0x43] = .ok .trkslice ∧
  ∀ (s : State) (len : Nat), s.endInImage →
    (s.startAddr.toNat ≤ s.endAddr.toNat ∧ len = s.endAddr.toNat - s.startAddr.toNat) ∨
      (s.endAddr.toNat < s.startAddr.toNat ∧ len = 0) →
    exec .trkslice s = .next { s with responses := s.responses ++
      [[0x00, BitVec.ofNat 8 (s.startAddr.toNat / 256), BitVec.ofNat 8 s.startAddr.toNat,
        BitVec.ofNat 8 (len / 65536), BitVec.ofNat 8 (len / 256), BitVec.ofNat 8 len]
        ++ (List.range len).map fun i => s.img.read (s.startAddr.toNat + i)] }

/-- R95, R96: IMGRD answers the byte at its address, RDSTAT the registers; neither changes anything. -/
def Obligations.ImgrdAndRdstatAnswerFromState : Prop :=
  ∀ (a : Addr) (s : State),
    (decodePacket [0x44, BitVec.ofNat 8 (a.toNat / 256), BitVec.ofNat 8 a.toNat] = .ok (.imgrd a) ∧
      exec (.imgrd a) s = .next { s with responses := s.responses ++ [[0x00, s.img.read a.toNat]] }) ∧
    (decodePacket [0x45] = .ok .rdstat ∧
      exec .rdstat s = .next { s with responses := s.responses ++ [[0x00, s.ck,
        BitVec.ofNat 8 (s.startAddr.toNat / 256), BitVec.ofNat 8 s.startAddr.toNat,
        BitVec.ofNat 8 (s.endAddr.toNat / 65536), BitVec.ofNat 8 (s.endAddr.toNat / 256), BitVec.ofNat 8 s.endAddr.toNat,
        BitVec.ofNat 8 (s.warn.toNat / 16777216), BitVec.ofNat 8 (s.warn.toNat / 65536),
        BitVec.ofNat 8 (s.warn.toNat / 256), BitVec.ofNat 8 s.warn.toNat]] })

/-- R34: repeating a TRKDATA leaves IMG, START and END as they were. -/
def Obligations.RepeatedTrkdataChangesNothingMore : Prop :=
  ∀ (offset : Addr) (bytes : List Byte) (s : State), s.imageCanonical → offset.toNat + bytes.length ≤ 65536 →
    ∃ t u, exec (.trkdata offset bytes) s = .next t ∧ exec (.trkdata offset bytes) t = .next u ∧
      u.img = t.img ∧ u.startAddr = t.startAddr ∧ u.endAddr = t.endAddr

/-- R97: what TRKINIT and then data records, with any other commands between them, leave for TRKSLICE: the least offset, the greatest end,
and at each address the byte of the last record that covers it, 0x00 if none does. -/
def Obligations.RunOfDataRecordsLeavesItsSlice : Prop :=
  ∀ (cmds : List Instr) (s : State), s.endInImage → s.running →
    (∀ i ∈ cmds, i.wf = true ∧ i.isRecord = false ∧ i ≠ .trkinit ∧ ownFault i = none) → acceptedRecords cmds ≠ [] →
    ∃ (base top : Nat) (t : State),
      (∃ r ∈ acceptedRecords cmds, r.1.toNat = base) ∧ (∀ r ∈ acceptedRecords cmds, base ≤ r.1.toNat) ∧
      (∃ r ∈ acceptedRecords cmds, r.1.toNat + r.2.length = top) ∧
      (∀ r ∈ acceptedRecords cmds, r.1.toNat + r.2.length ≤ top) ∧
      cmdAll [] ([.trkinit] ++ cmds ++ [.trkslice]) s =
        .next ([0x00, BitVec.ofNat 8 (base / 256), BitVec.ofNat 8 base, BitVec.ofNat 8 ((top - base) / 65536),
          BitVec.ofNat 8 ((top - base) / 256), BitVec.ofNat 8 (top - base)]
          ++ (List.range (top - base)).map (fun i => lastCovering (acceptedRecords cmds) (base + i)), t)

/-- R101, R103: D19's chunks are the input cut into full chunks but for the last, `ceil(len(B) / C)` of them; a chunk size outside 1..255
is refused. -/
def Obligations.ConverterCutsFullChunks : Prop :=
  (∀ (C : Nat) (B : List Byte), 1 ≤ C →
    (fullChunks C B).flatten = B ∧ (fullChunks C B).length = (B.length + C - 1) / C ∧
    (∀ j, j + 1 < (fullChunks C B).length → ((fullChunks C B).getD j []).length = C) ∧
    (∀ chunk ∈ fullChunks C B, 1 ≤ chunk.length ∧ chunk.length ≤ C)) ∧
  (∀ (A : Addr) (C : Nat) (reads : List ReadBytes) (k : Sink) (s : State), C = 0 ∨ 255 < C →
    convert A C reads k s = .refused .chunkSizeOutOfRange)

/-- R100, R102: the lines the converter writes for any chunks a byte source may return, the offset wrapping modulo 65536; the block's own
elements are unchanged. -/
def Obligations.ConverterWritesItsRecords : Prop :=
  ∀ (A : Addr) (C : Nat) (chunks : List (List Byte)) (written : List Byte) (s : State), s.endInImage → s.running →
    1 ≤ C → C ≤ 255 → (∀ chunk ∈ chunks, 1 ≤ chunk.length ∧ chunk.length ≤ C) →
    let offset (j : Nat) : Nat := (A.toNat + (chunks.take j).flatten.length) % 65536
    let dataLine (j : Nat) : Line := encline [BitVec.ofNat 8 (chunks.getD j []).length, BitVec.ofNat 8 (offset j / 256),
      BitVec.ofNat 8 (offset j), 0x00] (chunks.getD j [])
    ∃ t, convert A C (chunks.map .bytes) ⟨written, none⟩ s = .next ⟨.ok, t, ⟨written
        ++ encline [0x02, 0x00, 0x00, 0x04] [0x00, 0x00] ++ ((List.range chunks.length).map dataLine).flatten
        ++ encline [0x00, 0x00, 0x00, 0x01] [], none⟩, []⟩ ∧
      t.ck = s.ck ∧ t.startAddr = s.startAddr ∧ t.endAddr = s.endAddr ∧ t.warn = s.warn ∧ t.faultCode = s.faultCode ∧
      t.img = s.img ∧ t.port = s.port

/-- R108: converting any bytes and reconstructing from the lines written gives the bytes back, and the slice is where they started. That the
lines are the written bytes cut after each LF (`splitLines`) is the model's choice, log entry 9. -/
def Obligations.ConvertThenReconstructGivesTheBytesBack : Prop :=
  ∀ (A : Addr) (C : Nat) (B : List Byte) (cap : Byte) (s : State), s.endInImage → s.running → A.toNat + B.length ≤ 65536 →
    1 ≤ C → C ≤ 255 → C ≤ cap.toNat →
    ∃ r q, convertBytes A C B ⟨[], none⟩ s = .next r ∧ r.outcome = .ok ∧
      reconstruct cap ((splitLines [] r.sink.written).map .line) ⟨[], none⟩ r.block = .next q ∧ q.outcome = .ok ∧
      q.sink.written = B ∧
      (B ≠ [] → q.block.startAddr.toNat = A.toNat ∧ q.block.endAddr.toNat = A.toNat + B.length)

/-- R109: with N lines that are InvalidFormat or NotARecord before any EndOfFile, a run that ends well emits min(N, 10) diagnostics, then the
one suppression notice exactly when N >= 11, and nothing else. -/
def Obligations.WarningsOfARunAreCapped : Prop :=
  ∀ (cap : Byte) (lines : List Line) (k : Sink) (s : State) (r : Run), s.endInImage → s.running →
    reconstruct cap (lines.map .line) k s = .next r → r.outcome = .ok →
    let read := lines.takeWhile fun l => match decodeRecordLine l cap with | .endOfFile _ => false | _ => true
    let N := read.countP fun l => decodeErrorClass (decodeRecordLine l cap) == some .recoverableFormat
    r.diagnostics = List.replicate (min N 10) .warning ++ if 11 ≤ N then [.furtherSuppressed] else []

/-- R110: a stream with no Data record reconstructs to empty output, whatever other lines it holds. -/
def Obligations.StreamsWithoutDataGiveEmptyOutput : Prop :=
  ∀ (cap : Byte) (lines : List Line) (k : Sink) (s : State), s.endInImage → s.running →
    (∀ l ∈ lines, l.length ≤ 65535 ∧ decodeRecordLine l cap ≠ .bufferTooSmall ∧ ∀ o b, decodeRecordLine l cap ≠ .data o b) →
    ∃ r, reconstruct cap (lines.map .line) k s = .next r ∧ r.outcome = .ok ∧ r.sink = k

/-- R104, R106: a fatal run emits its one diagnostic, and no slice is written: not after a block fault or a too small buffer, not when no write
can have failed, and not after a failing read, whatever the sink would have done. -/
def Obligations.FatalReconstructionsWriteNothing : Prop :=
  ∀ (cap : Byte) (reads : List ReadLine) (k : Sink) (s : State) (r : Run),
    reconstruct cap reads k s = .next r → r.outcome ≠ .ok →
    r.diagnostics.count .fatal = 1 ∧ (r.outcome ≠ .fatalIo ∨ k.writesLeft ≠ some 0 → r.sink = k) ∧
    (∀ (lines : List Line) (later : List ReadLine), reads = lines.map .line ++ .ioFail :: later →
      (∀ l ∈ lines, ∀ a, decodeRecordLine l cap ≠ .endOfFile a) → r.sink = k)

/-- R106: in a running block the converter meets no block fault and the reconstructor none but IMAGE_OVERRUN, since only well-formed packets
are sent; the block is left halted by it (R107). -/
def Obligations.BlockFaultsOfARunAreOverruns : Prop :=
  ∀ s : State, s.endInImage → s.running →
    (∀ (A : Addr) (C : Nat) (reads : List ReadBytes) (k : Sink) (r : Run), convert A C reads k s = .next r →
      r.outcome ≠ .fatalBlock) ∧
    (∀ (cap : Byte) (reads : List ReadLine) (k : Sink) (r : Run), reconstruct cap reads k s = .next r →
      (r.outcome = .fatalBlock ↔ r.block.faultCode = 0xE5) ∧ (r.outcome ≠ .fatalBlock ↔ r.block.running))

/-- D17 (92_eei_decisions.md): a line of more than 65535 bytes cannot be sent; the procedure refuses it (log entry 9). -/
def Obligations.LinesThatCannotBeSentAreRefused : Prop :=
  ∀ (cap : Byte) (l : Line) (later : List ReadLine) (k : Sink) (s : State), s.endInImage → s.running → 65535 < l.length →
    reconstruct cap (.line l :: later) k s = .refused .lineCannotBeSent

/-- A run whose accepted records are all zero-length: no byte but 0x00 is in its slice, START is the least offset and END the greatest, so
both are equal and the slice is empty when there is one offset, as R23 says. For several offsets R23 and R18, R22, R92, R97 disagree, and
the model follows the latter (log entry 13). -/
def Obligations.ZeroLengthRecordsWriteNoByte : Prop :=
  ∀ (cmds : List Instr) (s : State), s.endInImage → s.running →
    (∀ i ∈ cmds, i.wf = true ∧ i.isRecord = false ∧ i ≠ .trkinit ∧ ownFault i = none) → acceptedRecords cmds ≠ [] →
    (∀ r ∈ acceptedRecords cmds, r.2 = []) →
    ∃ t : State,
      cmdAll [] ([.trkinit] ++ cmds ++ [.trkslice]) s =
        .next ([0x00, BitVec.ofNat 8 (t.startAddr.toNat / 256), BitVec.ofNat 8 t.startAddr.toNat, 0x00,
          BitVec.ofNat 8 ((t.endAddr.toNat - t.startAddr.toNat) / 256), BitVec.ofNat 8 (t.endAddr.toNat - t.startAddr.toNat)]
          ++ List.replicate (t.endAddr.toNat - t.startAddr.toNat) 0x00, t) ∧
      (∃ r ∈ acceptedRecords cmds, r.1.toNat = t.startAddr.toNat) ∧ (∃ r ∈ acceptedRecords cmds, r.1.toNat = t.endAddr.toNat) ∧
      (∀ r ∈ acceptedRecords cmds, t.startAddr.toNat ≤ r.1.toNat ∧ r.1.toNat ≤ t.endAddr.toNat) ∧
      ∀ a : Nat, t.img.read a = 0x00
end

