-- ==== Sys2Proof/Laws/Codec.lean ====
section
/-! SUPPORT. The laws of the codec functions, of the checksum and of the byte-order helpers. -/

namespace Sys2Proof.Machine

/-- A nibble's character reads back as the nibble (R62). -/
@[simp] theorem hexval_hexchr (n : BitVec 4) : hexval (hexchr n) = n := by
  revert n; decide

@[simp] theorem rdhex_zero (s : List Byte) (i : Nat) : rdhex s i 0 = 0 := rfl

/-- One more character shifts the value by a nibble (R56). -/
theorem rdhex_succ (s : List Byte) (i k : Nat) :
    rdhex s i (k + 1) = rdhex s i k * 16 + (hexval (s.getD (i + k) 0)).toNat := by
  simp [rdhex, List.range_succ]

/-- Two characters (R56). -/
theorem rdhex_two (s : List Byte) (i : Nat) :
    rdhex s i 2 = (hexval (s.getD i 0)).toNat * 16 + (hexval (s.getD (i + 1) 0)).toNat := by
  simp [rdhex_succ]

/-- Four characters are two pairs, the first the more significant (R56, R29). -/
theorem rdhex_four (s : List Byte) (i : Nat) : rdhex s i 4 = rdhex s i 2 * 256 + rdhex s (i + 2) 2 := by
  simp only [rdhex_succ, rdhex_zero, Nat.add_assoc, Nat.add_zero, Nat.reduceAdd]
  omega

/-- `k` characters fit in `4k` bits (R56). -/
theorem rdhex_lt (s : List Byte) (i k : Nat) : rdhex s i k < 16 ^ k := by
  induction k with
  | zero => simp
  | succ k ih =>
    rw [rdhex_succ, pow_succ]
    have := (hexval (s.getD (i + k) 0)).isLt
    omega

/-- Only the hex values of the characters read count (R88). -/
theorem rdhex_congr (s t : List Byte) (i k : Nat) (h : ∀ j, j < k → hexval (s.getD (i + j) 0) = hexval (t.getD (i + j) 0)) :
    rdhex s i k = rdhex t i k := by
  induction k with
  | zero => rfl
  | succ k ih => rw [rdhex_succ, rdhex_succ, ih fun j hj => h j (by omega), h k (by omega)]

@[simp] theorem length_wrhex2 (b : Byte) : (wrhex2 b).length = 2 := rfl

/-- A byte's two characters read back as the byte (R60, R62). -/
theorem hexval_wrhex2 (b : Byte) :
    (hexval ((wrhex2 b).getD 0 0)).toNat * 16 + (hexval ((wrhex2 b).getD 1 0)).toNat = b.toNat := by
  simp [wrhex2, highNibble, lowNibble, Nat.shiftRight_eq_div_pow]
  omega

@[simp] theorem length_flatMap_wrhex2 (bs : List Byte) : (bs.flatMap wrhex2).length = 2 * bs.length := by
  induction bs with
  | nil => rfl
  | cons b bs ih => simp [ih]; omega

/-- The characters of byte `i` in a sequence of written bytes. -/
theorem getD_flatMap_wrhex2 (bs t : List Byte) (i j : Nat) (hi : i < bs.length) (hj : j < 2) :
    (bs.flatMap wrhex2 ++ t).getD (2 * i + j) 0 = (wrhex2 (bs.getD i 0)).getD j 0 := by
  induction bs generalizing i with
  | nil => simp at hi
  | cons b bs ih =>
    cases i with
    | zero =>
      rcases j with _ | _ | j
      · simp [wrhex2]
      · simp [wrhex2]
      · omega
    | succ i =>
      simp only [List.length_cons, Nat.add_lt_add_iff_right] at hi
      rw [List.getD_cons_succ, ← ih i hi, List.flatMap_cons, show 2 * (i + 1) + j = (2 * i + j + 1) + 1 by omega]
      simp only [wrhex2, List.cons_append, List.getD_cons_succ, List.nil_append]

/-- Two characters at an even position of a sequence of written bytes are one of the bytes. -/
theorem rdhex_flatMap_wrhex2 (a : Byte) (bs t : List Byte) (i : Nat) (hi : i < bs.length) :
    rdhex (a :: (bs.flatMap wrhex2 ++ t)) (1 + 2 * i) 2 = (bs.getD i 0).toNat := by
  have h0 := getD_flatMap_wrhex2 bs t i 0 hi (by omega)
  have h1 := getD_flatMap_wrhex2 bs t i 1 hi (by omega)
  rw [Nat.add_zero] at h0
  rw [rdhex_two, ← hexval_wrhex2 (bs.getD i 0), Nat.add_comm 1 (2 * i), List.getD_cons_succ, List.getD_cons_succ, h0, h1]

@[simp] theorem byteSum_nil : byteSum [] = 0 := rfl

@[simp] theorem byteSum_cons (b : Byte) (bs : List Byte) : byteSum (b :: bs) = b.toNat + byteSum bs := by
  simp [byteSum]

@[simp] theorem byteSum_append (bs cs : List Byte) : byteSum (bs ++ cs) = byteSum bs + byteSum cs := by
  simp [byteSum]

/-- The checksum as a number (R63). -/
theorem toNat_checksum (bs : List Byte) : (checksum bs).toNat = (256 - byteSum bs % 256) % 256 := by
  simp [checksum]

@[simp] theorem length_be16 (v : Nat) : (be16 v).length = 2 := rfl

@[simp] theorem length_be24 (v : Nat) : (be24 v).length = 3 := rfl

@[simp] theorem length_be32 (v : Nat) : (be32 v).length = 4 := rfl

/-- A 16-bit value's big-endian bytes read back as the value (R31). -/
@[simp] theorem fromBe16_be16 (w : Addr) : fromBe16 (BitVec.ofNat 8 (w.toNat / 256)) (BitVec.ofNat 8 w.toNat) = w := by
  apply BitVec.eq_of_toNat_eq
  simp [fromBe16]
  omega

/-- The number two big-endian bytes spell. -/
theorem toNat_fromBe16 (hi lo : Byte) : (fromBe16 hi lo).toNat = hi.toNat * 256 + lo.toNat := by
  simp [fromBe16]
  omega

end Sys2Proof.Machine
end

