-- ==== Sys2Proof/Laws/Memory.lean ====
section
/-! SUPPORT. The laws of the image: read after write, read after a copy, and that every memory operation keeps the canonical form, in which
equal images are equal lists. -/

namespace Sys2Proof.Machine

@[simp] theorem Memory.read_nil (a : Nat) : Memory.read [] a = 0 := rfl

@[simp] theorem Memory.read_clear (a : Nat) : Memory.read Memory.clear a = 0 := rfl

/-- The canonical form holds from every lower bound below one it holds from. -/
theorem Memory.wfFrom_mono {lo lo' : Nat} (m : Memory) (h : m.wfFrom lo = true) (hle : lo' ≤ lo) : m.wfFrom lo' = true := by
  cases m with
  | nil => rfl
  | cons e rest =>
    simp only [Memory.wfFrom, Bool.and_eq_true, decide_eq_true_eq] at h ⊢
    exact ⟨⟨⟨by omega, h.1.1.2⟩, h.1.2⟩, h.2⟩

/-- Below the bound of the canonical form nothing is listed. -/
theorem Memory.read_below {lo : Nat} (m : Memory) (h : m.wfFrom lo = true) (a : Nat) (ha : a < lo) : m.read a = 0 := by
  induction m generalizing lo with
  | nil => rfl
  | cons e rest ih =>
    obtain ⟨b, w⟩ := e
    simp only [Memory.wfFrom, Bool.and_eq_true, decide_eq_true_eq] at h
    rw [Memory.read, if_neg (by omega)]
    exact ih h.2 (by omega)

/-- Outside 0x0000 to 0xFFFF a canonical image lists nothing (R26). -/
theorem Memory.read_outside {lo : Nat} (m : Memory) (h : m.wfFrom lo = true) (a : Nat) (ha : Config.imgSize ≤ a) : m.read a = 0 := by
  induction m generalizing lo with
  | nil => rfl
  | cons e rest ih =>
    obtain ⟨b, w⟩ := e
    simp only [Memory.wfFrom, Bool.and_eq_true, decide_eq_true_eq] at h
    rw [Memory.read, if_neg (by omega)]
    exact ih h.2

/-- Read after write in the canonical form: the written address holds the value, every other address is unchanged. -/
theorem Memory.read_write {lo : Nat} (m : Memory) (h : m.wfFrom lo = true) (a : Nat) (v : Byte) (x : Nat) :
    (m.write a v).read x = if x = a then v else m.read x := by
  induction m generalizing lo with
  | nil =>
    simp only [Memory.write]
    split <;> simp_all [Memory.read]
  | cons e rest ih =>
    obtain ⟨b, w⟩ := e
    simp only [Memory.wfFrom, Bool.and_eq_true, decide_eq_true_eq] at h
    have below : ∀ y, y ≤ b → Memory.read rest y = 0 := fun y hy => Memory.read_below rest h.2 y (by omega)
    have hi := ih h.2
    simp only [Memory.write]
    split
    · split
      · next hlt hv =>
        by_cases hx : x = a
        · subst hx; rw [if_pos rfl, hv, Memory.read, if_neg (by omega), below x (by omega)]
        · rw [if_neg hx]
      · rw [Memory.read]
    · split
      · next heq =>
        subst heq
        split
        · next hv =>
          by_cases hx : x = a
          · subst hx; rw [if_pos rfl, below x (le_refl _), hv]
          · rw [if_neg hx, Memory.read, if_neg hx]
        · by_cases hx : x = a <;> simp [Memory.read, hx]
      · next hne =>
        rw [Memory.read, Memory.read, hi]
        by_cases hx : x = b
        · rw [if_pos hx, if_pos hx, if_neg (by omega)]
        · rw [if_neg hx, if_neg hx]

/-- A write inside the image keeps the canonical form. -/
theorem Memory.wfFrom_write {lo : Nat} (m : Memory) (h : m.wfFrom lo = true) (a : Nat) (v : Byte) (hlo : lo ≤ a)
    (ha : a < Config.imgSize) : (m.write a v).wfFrom lo = true := by
  induction m generalizing lo with
  | nil =>
    simp only [Memory.write]
    split <;> simp_all [Memory.wfFrom]
  | cons e rest ih =>
    obtain ⟨b, w⟩ := e
    have h' := h
    simp only [Memory.wfFrom, Bool.and_eq_true, decide_eq_true_eq] at h
    simp only [Memory.write]
    split
    · split
      · exact h'
      · simp only [Memory.wfFrom, Bool.and_eq_true, decide_eq_true_eq]
        exact ⟨⟨⟨hlo, ha⟩, ‹_›⟩, ⟨⟨by omega, h.1.1.2⟩, h.1.2⟩, h.2⟩
    · split
      · next heq =>
        subst heq
        split
        · exact Memory.wfFrom_mono rest h.2 (by omega)
        · simp only [Memory.wfFrom, Bool.and_eq_true, decide_eq_true_eq]
          exact ⟨⟨⟨hlo, ha⟩, ‹_›⟩, h.2⟩
      · simp only [Memory.wfFrom, Bool.and_eq_true, decide_eq_true_eq]
        exact ⟨h.1, ih h.2 (by omega)⟩

/-- A write inside the image keeps the canonical form. -/
theorem Memory.wf_write (m : Memory) (h : m.wf = true) (a : Nat) (v : Byte) (ha : a < Config.imgSize) : (m.write a v).wf = true :=
  Memory.wfFrom_write m h a v (Nat.zero_le a) ha

/-- A copy inside the image keeps the canonical form. -/
theorem Memory.wf_writeBytes (bytes : List Byte) (m : Memory) (h : m.wf = true) (a : Nat)
    (ha : a + bytes.length ≤ Config.imgSize) : (m.writeBytes a bytes).wf = true := by
  induction bytes generalizing m a with
  | nil => exact h
  | cons v rest ih =>
    simp only [List.length_cons] at ha
    exact ih (m.write a v) (Memory.wf_write m h a v (by omega)) (a + 1) (by omega)

@[simp] theorem Memory.wf_clear : Memory.wf Memory.clear = true := rfl

/-- Read after a copy: the copied bytes where they were put, every other address unchanged (R32, R35). -/
theorem Memory.read_writeBytes (bytes : List Byte) (m : Memory) (h : m.wf = true) (a : Nat)
    (ha : a + bytes.length ≤ Config.imgSize) (x : Nat) :
    (m.writeBytes a bytes).read x = if a ≤ x ∧ x < a + bytes.length then bytes.getD (x - a) 0 else m.read x := by
  induction bytes generalizing m a with
  | nil => simp [Memory.writeBytes]
  | cons v rest ih =>
    simp only [List.length_cons] at ha
    rw [Memory.writeBytes, ih (m.write a v) (Memory.wf_write m h a v (by omega)) (a + 1) (by omega),
      Memory.read_write m h]
    by_cases h1 : x = a
    · subst h1
      rw [if_neg (by omega), if_pos rfl, if_pos (by simp), Nat.sub_self]; rfl
    · by_cases h2 : a + 1 ≤ x ∧ x < a + 1 + rest.length
      · rw [if_pos h2, if_pos (by simp only [List.length_cons]; omega)]
        obtain ⟨k, rfl⟩ : ∃ k, x = a + 1 + k := ⟨x - (a + 1), by omega⟩
        rw [show a + 1 + k - a = k + 1 by omega, show a + 1 + k - (a + 1) = k by omega, List.getD_cons_succ]
      · rw [if_neg h2, if_neg h1, if_neg (by simp only [List.length_cons]; omega)]

/-- Two canonical images that read the same everywhere are the same list. -/
theorem Memory.ext_wfFrom {lo : Nat} (m m' : Memory) (h : m.wfFrom lo = true) (h' : m'.wfFrom lo = true)
    (hr : ∀ a, m.read a = m'.read a) : m = m' := by
  induction m generalizing lo m' with
  | nil =>
    cases m' with
    | nil => rfl
    | cons e rest =>
      obtain ⟨b, w⟩ := e
      simp only [Memory.wfFrom, Bool.and_eq_true, decide_eq_true_eq] at h'
      have := hr b
      simp [Memory.read] at this
      exact absurd this.symm h'.1.2
  | cons e rest ih =>
    obtain ⟨b, w⟩ := e
    have h0 := h
    simp only [Memory.wfFrom, Bool.and_eq_true, decide_eq_true_eq] at h
    cases m' with
    | nil =>
      have := hr b
      simp [Memory.read] at this
      exact absurd this h.1.2
    | cons e' rest' =>
      obtain ⟨b', w'⟩ := e'
      have h0' := h'
      simp only [Memory.wfFrom, Bool.and_eq_true, decide_eq_true_eq] at h'
      have hbb : b = b' := by
        rcases Nat.lt_trichotomy b b' with hlt | heq | hgt
        · have := hr b
          rw [Memory.read, if_pos rfl, Memory.read, if_neg (by omega),
            Memory.read_below rest' h'.2 b (by omega)] at this
          exact absurd this h.1.2
        · exact heq
        · have := hr b'
          rw [Memory.read, if_neg (by omega), Memory.read_below rest h.2 b' (by omega), Memory.read, if_pos rfl] at this
          exact absurd this.symm h'.1.2
      subst hbb
      have hww : w = w' := by simpa [Memory.read] using hr b
      subst hww
      have hrest : rest = rest' := by
        apply ih rest' h.2 h'.2
        intro a
        by_cases hab : a = b
        · rw [Memory.read_below rest h.2 a (by omega), Memory.read_below rest' h'.2 a (by omega)]
        · simpa [Memory.read, hab] using hr a
      rw [hrest]

/-- Equal images are equal data. -/
theorem Memory.ext_wf (m m' : Memory) (h : m.wf = true) (h' : m'.wf = true) (hr : ∀ a, m.read a = m'.read a) : m = m' :=
  Memory.ext_wfFrom m m' h h' hr

@[simp] theorem Memory.length_readBytes (m : Memory) (a n : Nat) : (m.readBytes a n).length = n := by
  simp [Memory.readBytes]

/-- The byte a slice holds at position `i` (R94). -/
theorem Memory.getD_readBytes (m : Memory) (a n i : Nat) (hi : i < n) : (m.readBytes a n).getD i 0 = m.read (a + i) := by
  simp [Memory.readBytes, List.getD_eq_getElem?_getD, hi]

end Sys2Proof.Machine
end

