-- ==== Sys2Proof/Laws/State.lean ====
section
/-! SUPPORT. One lemma per field and per update of State: what `respond`, `takeFault`, `applyReset` and `sendNext` leave in each field. -/

namespace Sys2Proof.Machine

@[simp] theorem State.respond_ck (s : State) (r : Packet) : (s.respond r).ck = s.ck := rfl

@[simp] theorem State.respond_startAddr (s : State) (r : Packet) : (s.respond r).startAddr = s.startAddr := rfl

@[simp] theorem State.respond_endAddr (s : State) (r : Packet) : (s.respond r).endAddr = s.endAddr := rfl

@[simp] theorem State.respond_warn (s : State) (r : Packet) : (s.respond r).warn = s.warn := rfl

@[simp] theorem State.respond_faultCode (s : State) (r : Packet) : (s.respond r).faultCode = s.faultCode := rfl

@[simp] theorem State.respond_img (s : State) (r : Packet) : (s.respond r).img = s.img := rfl

@[simp] theorem State.respond_port (s : State) (r : Packet) : (s.respond r).port = s.port := rfl

@[simp] theorem State.respond_responses (s : State) (r : Packet) : (s.respond r).responses = s.responses ++ [r] := rfl

@[simp] theorem takeFault_ck (c : FaultCause) (s : State) : (takeFault c s).ck = s.ck := rfl

@[simp] theorem takeFault_startAddr (c : FaultCause) (s : State) : (takeFault c s).startAddr = s.startAddr := rfl

@[simp] theorem takeFault_endAddr (c : FaultCause) (s : State) : (takeFault c s).endAddr = s.endAddr := rfl

@[simp] theorem takeFault_warn (c : FaultCause) (s : State) : (takeFault c s).warn = s.warn := rfl

@[simp] theorem takeFault_faultCode (c : FaultCause) (s : State) : (takeFault c s).faultCode = faultByte c := rfl

@[simp] theorem takeFault_img (c : FaultCause) (s : State) : (takeFault c s).img = s.img := rfl

@[simp] theorem takeFault_port (c : FaultCause) (s : State) : (takeFault c s).port = s.port := rfl

@[simp] theorem takeFault_responses (c : FaultCause) (s : State) : (takeFault c s).responses = s.responses ++ [[faultByte c]] := rfl

@[simp] theorem applyReset_ck (s : State) : (applyReset s).ck = 0x00 := rfl

@[simp] theorem applyReset_startAddr (s : State) : (applyReset s).startAddr = 0xFFFF := rfl

@[simp] theorem applyReset_endAddr (s : State) : (applyReset s).endAddr = 0 := rfl

@[simp] theorem applyReset_warn (s : State) : (applyReset s).warn = 0 := rfl

@[simp] theorem applyReset_faultCode (s : State) : (applyReset s).faultCode = 0x00 := rfl

@[simp] theorem applyReset_img (s : State) : (applyReset s).img = [] := rfl

@[simp] theorem applyReset_port (s : State) : (applyReset s).port = s.port := rfl

@[simp] theorem applyReset_responses (s : State) : (applyReset s).responses = s.responses := rfl

@[simp] theorem sendNext_ck (p : Packet) (s : State) : (sendNext p s).ck = s.ck := rfl

@[simp] theorem sendNext_startAddr (p : Packet) (s : State) : (sendNext p s).startAddr = s.startAddr := rfl

@[simp] theorem sendNext_endAddr (p : Packet) (s : State) : (sendNext p s).endAddr = s.endAddr := rfl

@[simp] theorem sendNext_warn (p : Packet) (s : State) : (sendNext p s).warn = s.warn := rfl

@[simp] theorem sendNext_faultCode (p : Packet) (s : State) : (sendNext p s).faultCode = s.faultCode := rfl

@[simp] theorem sendNext_img (p : Packet) (s : State) : (sendNext p s).img = s.img := rfl

@[simp] theorem sendNext_port (p : Packet) (s : State) : (sendNext p s).port = .command p :: s.port := rfl

@[simp] theorem sendNext_responses (p : Packet) (s : State) : (sendNext p s).responses = s.responses := rfl

/-- The response just given is the last one. -/
@[simp] theorem State.lastResponse_respond (s : State) (r : Packet) : (s.respond r).lastResponse = r := by
  simp [State.lastResponse, State.respond]

/-- Taking a fault answers its code alone (R114). -/
@[simp] theorem takeFault_lastResponse (c : FaultCause) (s : State) : (takeFault c s).lastResponse = [faultByte c] := by
  simp [State.lastResponse]

/-- A fault code is never 0x00, so a fault halts the block (R112, R115). -/
theorem faultByte_ne_zero (c : FaultCause) : faultByte c ≠ 0 := by
  cases c <;> decide

/-- A fault code is one of R20's legal values. -/
@[simp] theorem faultCodeLegal_faultByte (c : FaultCause) : faultCodeLegal (faultByte c) = true := by
  cases c <;> decide

end Sys2Proof.Machine
end

