-- ==== Sys2Proof/Laws/Exec.lean ====
section
/-! SUPPORT. What an instruction's own rule can do, said once (`exec_cases`), and the equations of the decoder's shared operations. -/

namespace Sys2Proof.Machine

/-- The meaning of a record is its classification, answered (R78, R79 to R85). -/
theorem execRecord_eq (cap : Byte) (r : Record) (s : State) :
    execRecord cap r s = .next (s.respond (decodeResponse (classify cap r))) := by
  unfold execRecord classify
  repeat' split
  all_goals rfl

/-- DECODE answers `decode(line, cap)` (R76, R78). -/
theorem execDecode_eq (cap : Byte) (line : Line) (s : State) :
    execDecode cap line s = .next (s.respond (decodeResponse (decodeRecordLine line cap))) := by
  unfold execDecode decodeRecordLine
  split
  · rfl
  · exact execRecord_eq cap _ s

/-- A record's row, run alone, is what DECODE runs for the record (R43, R76 step 7). -/
theorem exec_recordInstr (cap : Byte) (r : Record) (s : State) : exec (recordInstr cap r) s = execRecord cap r s := by
  unfold recordInstr execRecord
  repeat' split
  all_goals rfl

/-- The reserved bits of HEXCHR's operand are 0 exactly for a value below 16 (R55). -/
theorem highNibble_eq_zero_iff (b : Byte) : highNibble b = 0 ↔ b.toNat < 16 := by
  revert b; decide

/-- Every response of a decode starts with the status of a completed command (R46, R78). -/
theorem decodeResponse_eq_cons (r : DecodeResult) : decodeResponse r = statusOk :: kindAndPayload r := rfl

/-- What an instruction's own rule can do when it gives a next state: answer and write nothing, raise its own fault, or write the elements
that R16 to R21 let it write. -/
theorem exec_cases {i : Instr} {s t : State} (h : exec i s = .next t) :
    (ownFault i = none ∧ acceptedRecord i = none ∧ i ≠ .ckclr ∧ (∀ b, i ≠ .ckadd b) ∧ i ≠ .trkinit ∧ i ≠ .trkwarn ∧
      ∃ r, t = s.respond (statusOk :: r)) ∨
    (∃ c, ownFault i = some c ∧ t = takeFault c s) ∨
    (i = .ckclr ∧ t = ({ s with ck := 0 }).respond [statusOk]) ∨
    (∃ b, i = .ckadd b ∧ t = ({ s with ck := BitVec.ofNat 8 ((s.ck.toNat + b.toNat) % 256) }).respond [statusOk]) ∨
    (i = .trkinit ∧
      t = ({ s with startAddr := Config.startReset, endAddr := 0, warn := 0, img := Memory.clear }).respond [statusOk]) ∨
    (∃ offset bytes, i = .trkdata offset bytes ∧ offset.toNat + bytes.length ≤ 65536 ∧
      t = ({ s with
        img := s.img.writeBytes offset.toNat bytes
        startAddr := lowerStart s.startAddr offset
        endAddr := raiseEnd s.endAddr offset bytes.length }).respond [statusOk]) ∨
    (i = .trkwarn ∧ t = ({ s with warn := countWarning s.warn }).respond [statusOk, warnAction s.warn]) := by
  have answer : ∀ r : Packet, Host.Outcome.next (φ := Fault) (ρ := Refusal) (s.respond (statusOk :: r)) = .next t →
      ∃ r, t = s.respond (statusOk :: r) := fun r hr => ⟨r, by cases hr; rfl⟩
  cases i with
  | hexchr b =>
    simp only [exec, execHexchr] at h
    split at h
    · next hb =>
      rw [ne_eq, highNibble_eq_zero_iff] at hb
      exact .inr (.inl ⟨.operand, by simp [ownFault, hb], by cases h; rfl⟩)
    · next hb =>
      rw [not_not, highNibble_eq_zero_iff] at hb
      exact .inl ⟨by simp [ownFault, hb], rfl, nofun, nofun, nofun, nofun, answer _ h⟩
  | encdat offset bytes =>
    simp only [exec, execEncdat] at h
    split at h
    · next hb => exact .inr (.inl ⟨.contract, by simp only [ownFault, Config.maxReclen] at *; rw [if_neg (by omega)], by cases h; rfl⟩)
    · next hb =>
      exact .inl ⟨by simp only [ownFault, Config.maxReclen] at *; rw [if_pos (by omega)], rfl, nofun, nofun, nofun, nofun, answer _ h⟩
  | trkdata offset bytes =>
    simp only [exec, execTrkdata] at h
    split at h
    · next hb => exact .inr (.inl ⟨.imageOverrun, by simp only [ownFault, Config.imgSize] at *; rw [if_neg (by omega)], by cases h; rfl⟩)
    · next hb =>
      exact .inr (.inr (.inr (.inr (.inr (.inl ⟨offset, bytes, rfl, by simp only [Config.imgSize] at hb; omega, by cases h; rfl⟩)))))
  | trkslice =>
    simp only [exec, execTrkslice] at h
    split at h
    · cases h
    · exact .inl ⟨rfl, rfl, nofun, nofun, nofun, nofun, answer _ h⟩
  | decode cap line =>
    simp only [exec, execDecode_eq] at h
    exact .inl ⟨rfl, rfl, nofun, nofun, nofun, nofun, answer _ h⟩
  | ckclr => exact .inr (.inr (.inl ⟨rfl, by cases h; rfl⟩))
  | ckadd b => exact .inr (.inr (.inr (.inl ⟨b, rfl, by cases h; rfl⟩)))
  | trkinit => exact .inr (.inr (.inr (.inr (.inl ⟨rfl, by cases h; rfl⟩))))
  | trkwarn => exact .inr (.inr (.inr (.inr (.inr (.inr ⟨rfl, by cases h; rfl⟩)))))
  | _ => exact .inl ⟨rfl, rfl, nofun, nofun, nofun, nofun, answer _ h⟩

/-- An instruction's own rule gives a next state from every state whose `END` is inside the image (00_scope.md R10). -/
theorem exec_completes (i : Instr) (s : State) (h : s.endAddr.toNat ≤ 65536) : ∃ t, exec i s = .next t := by
  cases i with
  | hexchr b => simp only [exec, execHexchr]; split <;> exact ⟨_, rfl⟩
  | encdat offset bytes => simp only [exec, execEncdat]; split <;> exact ⟨_, rfl⟩
  | trkdata offset bytes => simp only [exec, execTrkdata]; split <;> exact ⟨_, rfl⟩
  | trkslice => simp only [exec, execTrkslice, Config.imgSize]; rw [if_neg (by omega)]; exact ⟨_, rfl⟩
  | decode cap line => exact ⟨_, execDecode_eq cap line s⟩
  | _ => exact ⟨_, rfl⟩

end Sys2Proof.Machine
end

