-- ==== Sys2Proof/Laws/Step.lean ====
section
/-! SUPPORT. What one step can do, said once (`step_cases`), and the step of each kind of host action. -/

namespace Sys2Proof.Machine

/-- A state whose `END` is inside the image and whose `FAULT` is legal has a step (U16). -/
theorem stuckReason_eq_none {s : State} (he : s.endInImage) (hf : s.faultLegal) : stuckReason s = none := by
  unfold State.endInImage at he
  unfold State.faultLegal at hf
  unfold stuckReason
  rw [if_neg (by simp only [Config.imgSize]; omega), if_neg (by simp [hf])]

/-- A state with a step has its `END` inside the image and a legal `FAULT` (U16). -/
theorem legal_of_stuckReason {s : State} (h : stuckReason s = none) : s.endInImage ∧ s.faultLegal := by
  unfold stuckReason at h
  split at h
  · cases h
  · next he =>
    split at h
    · cases h
    · next hf => exact ⟨by simp only [Config.imgSize] at he; unfold State.endInImage; omega, by simpa [State.faultLegal] using hf⟩

/-- `FAULT` 0x00 is legal (R20). -/
theorem faultLegal_of_running {s : State} (h : s.running) : s.faultLegal := by
  unfold State.faultLegal
  rw [show s.faultCode = 0 from h]
  rfl

/-- What one step can do: idle, reset, answer for a halted block, fault in the prologue, or run a decoded command (R111). -/
theorem step_cases {s t : State} (h : step s = .next t) :
    s.endInImage ∧ s.faultLegal ∧
    ((s.port = [] ∧ t = s) ∨
     (∃ rest, s.port = .reset :: rest ∧ t = applyReset { s with port := rest }) ∨
     (∃ p rest, s.port = .command p :: rest ∧ s.halted ∧ t = ({ s with port := rest }).respond [s.faultCode]) ∨
     (∃ p rest c, s.port = .command p :: rest ∧ s.running ∧ decodePacket p = .error c ∧ t = takeFault c { s with port := rest }) ∨
     (∃ p rest i, s.port = .command p :: rest ∧ s.running ∧ decodePacket p = .ok i ∧ exec i { s with port := rest } = .next t)) := by
  unfold step fetch at h
  cases hs : stuckReason s with
  | some f => simp [hs] at h
  | none =>
    refine ⟨(legal_of_stuckReason hs).1, (legal_of_stuckReason hs).2, ?_⟩
    simp only [hs] at h
    match hp : s.port with
    | [] =>
      simp only [hp] at h
      exact .inl ⟨rfl, by cases h; rfl⟩
    | .reset :: rest =>
      simp only [hp] at h
      exact .inr (.inl ⟨rest, rfl, by cases h; rfl⟩)
    | .command p :: rest =>
      simp only [hp, prologue] at h
      by_cases hf : s.faultCode = 0
      · rw [if_neg (not_not.mpr hf)] at h
        cases hd : decodePacket p with
        | error c =>
          simp only [hd] at h
          exact .inr (.inr (.inr (.inl ⟨p, rest, c, rfl, hf, hd, by cases h; rfl⟩)))
        | ok i =>
          simp only [hd] at h
          exact .inr (.inr (.inr (.inr ⟨p, rest, i, rfl, hf, hd, h⟩)))
      · rw [if_pos hf] at h
        exact .inr (.inr (.inl ⟨p, rest, rfl, hf, by cases h; rfl⟩))

/-- A step on a packet of a running block that decodes runs the command (R111). -/
theorem step_command {s : State} {p : Packet} {rest : List HostAction} {i : Instr} (he : s.endInImage) (hr : s.running)
    (hp : s.port = .command p :: rest) (hd : decodePacket p = .ok i) : step s = exec i { s with port := rest } := by
  have hf : s.faultCode = 0 := hr
  unfold step fetch
  rw [stuckReason_eq_none he (faultLegal_of_running hr)]
  simp [hp, prologue, hf, hd]

/-- A step on a packet of a running block that does not decode takes the prologue's fault (R111). -/
theorem step_packet_error {s : State} {p : Packet} {rest : List HostAction} {c : FaultCause} (he : s.endInImage) (hr : s.running)
    (hp : s.port = .command p :: rest) (hd : decodePacket p = .error c) :
    step s = .next (takeFault c { s with port := rest }) := by
  have hf : s.faultCode = 0 := hr
  unfold step fetch
  rw [stuckReason_eq_none he (faultLegal_of_running hr)]
  simp [hp, prologue, hf, hd]

end Sys2Proof.Machine
end

