-- ==== Sys2Proof/Laws/CommandPort.lean ====
section
/-! SUPPORT. What sending one command does: the host's `cmd` is the command's own rule, then its response. -/

namespace Sys2Proof.Machine

@[simp] theorem andThen_next {α β : Type} (a : α) (f : α → Host.Outcome β Fault Refusal) : andThen (.next a) f = f a := rfl

/-- What a sequence that completes went through. -/
theorem andThen_eq_next {α β : Type} {x : Host.Outcome α Fault Refusal} {f : α → Host.Outcome β Fault Refusal} {b : β}
    (h : andThen x f = .next b) : ∃ a, x = .next a ∧ f a = .next b := by
  cases x with
  | next a => exact ⟨a, rfl, h⟩
  | fault r => cases h
  | refused r => cases h

/-- To a running block, `cmd` of a command that its packet decodes to is the command's own rule and its response (R98, R111). -/
theorem cmd_of_decode {i : Instr} {s : State} (he : s.endInImage) (hr : s.running) (hd : decodePacket (encode i) = .ok i) :
    cmd i s = andThen (exec i s) fun t => .next (t.lastResponse, t) := by
  have h := step_command (s := sendNext (encode i) s) (p := encode i) (rest := s.port) he hr rfl hd
  show andThen (step (sendNext (encode i) s)) _ = _
  rw [h]
  rfl

/-- `cmd` of a command whose own rule answers `t`. -/
theorem cmd_eq_next {i : Instr} {s t : State} (he : s.endInImage) (hr : s.running) (hd : decodePacket (encode i) = .ok i)
    (h : exec i s = .next t) : cmd i s = .next (t.lastResponse, t) := by
  rw [cmd_of_decode he hr hd, h]
  rfl

/-- A sequence of commands whose first completes goes on with the rest (R52). -/
theorem cmdAll_cons_of_completed {last : Packet} {i : Instr} {rest : List Instr} {s t : State} {r : Packet}
    (h : cmd i s = .next (r, t)) (hr : completed r = true) : cmdAll last (i :: rest) s = cmdAll r rest t := by
  simp [cmdAll, h, hr]

end Sys2Proof.Machine
end

