-- ==== Sys2Proof/Laws/Decode.lean ====
section
/-! SUPPORT. The laws of the packet decoder: what a packet that decodes looks like, and the fields of the formats that carry lists. -/

namespace Sys2Proof.Machine

/-- What decoding a packet can do (R111): it gives a command exactly when the opcode is in the map and the length is the format's. -/
theorem decodePacket_eq_ok {p : Packet} {i : Instr} (h : decodePacket p = .ok i) :
    ∃ op rest f command, p = op :: rest ∧ opcodeMap op = some (f, command) ∧ neededLength f p = some p.length ∧
      i = command p := by
  unfold decodePacket at h
  split at h
  · cases h
  · next op rest =>
    split at h
    · cases h
    · next f command hm =>
      split at h
      · next hl => cases h; exact ⟨op, rest, f, command, rfl, hm, hl, rfl⟩
      · cases h

/-- The prologue's two causes for a packet (R111): only an unknown opcode and a malformed packet are found there. -/
theorem decodePacket_eq_error {p : Packet} {c : FaultCause} (h : decodePacket p = .error c) :
    c = .illegalOpcode ∨ c = .malformedPacket := by
  unfold decodePacket at h
  split at h
  · cases h; exact .inr rfl
  · split at h
    · cases h; exact .inl rfl
    · split at h
      · cases h
      · cases h; exact .inr rfl

@[simp] theorem length_packetWD (op : Byte) (offset : Addr) (bytes : List Byte) :
    (packetWD op offset bytes).length = 4 + bytes.length := by
  simp [packetWD]; omega

@[simp] theorem length_packetW (op : Byte) (w : Addr) : (packetW op w).length = 3 := rfl

@[simp] theorem length_packetL (op cap : Byte) (line : Line) : (packetL op cap line).length = 4 + line.length := by
  simp [packetL]; omega

@[simp] theorem operandW_packetW (op : Byte) (w : Addr) : operandW (packetW op w) = w := fromBe16_be16 w

@[simp] theorem operandW_packetWD (op : Byte) (offset : Addr) (bytes : List Byte) :
    operandW (packetWD op offset bytes) = offset := fromBe16_be16 offset

/-- The count field of a WD packet, where the bytes fit it (R44). -/
theorem countWD_packetWD (op : Byte) (offset : Addr) (bytes : List Byte) (h : bytes.length ≤ 255) :
    countWD (packetWD op offset bytes) = bytes.length := by
  simp [countWD, byteAt, packetWD, be16]
  omega

/-- The byte list of a WD packet, where it fits the count field (R44). -/
theorem bytesWD_packetWD (op : Byte) (offset : Addr) (bytes : List Byte) (h : bytes.length ≤ 255) :
    bytesWD (packetWD op offset bytes) = bytes := by
  rw [bytesWD, countWD_packetWD op offset bytes h]
  simp [packetWD, be16]

/-- The length field of an L packet, where the line fits it (R44). -/
theorem countL_packetL (op cap : Byte) (line : Line) (h : line.length ≤ 65535) :
    countL (packetL op cap line) = line.length := by
  simp [countL, byteAt, packetL, be16]
  omega

/-- The line of an L packet, where it fits the length field (R44). -/
theorem lineL_packetL (op cap : Byte) (line : Line) (h : line.length ≤ 65535) : lineL (packetL op cap line) = line := by
  rw [lineL, countL_packetL op cap line h]
  simp [packetL, be16]

/-- The length a WD packet needs, once its four fixed bytes are there (R111). -/
theorem neededLength_WD (p : Packet) (h : 4 ≤ p.length) : neededLength .WD p = some (4 + countWD p) := by
  rw [neededLength, if_neg (by omega)]

/-- The length an L packet needs, once its four fixed bytes are there (R111). -/
theorem neededLength_L (p : Packet) (h : 4 ≤ p.length) : neededLength .L p = some (4 + countL p) := by
  rw [neededLength, if_neg (by omega)]

/-- A packet whose opcode is in the map and whose length is its format's decodes to the command its fields spell (R44, R45). -/
theorem decodePacket_of_length {p : Packet} {op : Byte} {f : Format} {command : Packet → Instr} (hp : p.head? = some op)
    (hm : opcodeMap op = some (f, command)) (hl : neededLength f p = some p.length) : decodePacket p = .ok (command p) := by
  cases p with
  | nil => cases hp
  | cons o rest =>
    cases hp
    simp only [decodePacket, hm, hl, if_true]

/-- A packet of another length than its format's is malformed (R49). -/
theorem decodePacket_of_wrong_length {p : Packet} {op : Byte} {f : Format} {command : Packet → Instr} (hp : p.head? = some op)
    (hm : opcodeMap op = some (f, command)) (hl : neededLength f p ≠ some p.length) :
    decodePacket p = .error .malformedPacket := by
  cases p with
  | nil => cases hp
  | cons o rest =>
    cases hp
    simp only [decodePacket, hm]
    rw [if_neg hl]

end Sys2Proof.Machine
end

