-- ==== Sys2Proof/Laws/Line.lean ====
section
/-! SUPPORT. The laws of the wire format: what a built line holds at each position, what reading one can do, and that reading depends on
the hex values of the fields alone. -/

namespace Sys2Proof.Machine

/-- The length of a built line, for any header (R70). -/
@[simp] theorem length_encline (h p : List Byte) : (encline h p).length = 2 * (h.length + p.length) + 4 := by
  simp [encline]
  omega

@[simp] theorem length_header (n : Nat) (offset : Addr) (t : Byte) : (header n offset t).length = 4 := rfl

/-- A built line starts with the mark (R69). -/
@[simp] theorem getD_encline_zero (h p : List Byte) : (encline h p).getD 0 0 = Config.mark := rfl

/-- The two characters at position 1 + 2k of a built line are byte `k` of header, payload and checksum (R41, R69). -/
theorem rdhex_encline (h p : List Byte) (k : Nat) (hk : k < h.length + p.length + 1) :
    rdhex (encline h p) (1 + 2 * k) 2 = ((h ++ p ++ [checksum (h ++ p)]).getD k 0).toNat := by
  have := rdhex_flatMap_wrhex2 Config.mark (h ++ p ++ [checksum (h ++ p)]) [Config.lf] k (by simp; omega)
  simpa only [encline, List.cons_append, List.nil_append] using this

/-- The character after the checksum of a built line is LF (R69). -/
theorem getD_encline_terminator (h p : List Byte) : (encline h p).getD (2 * (h.length + p.length) + 3) 0 = Config.lf := by
  have hl : ((h ++ p ++ [checksum (h ++ p)]).flatMap wrhex2).length = 2 * (h.length + p.length) + 2 := by simp; omega
  simp only [encline, List.cons_append, List.nil_append]
  rw [List.getD_cons_succ, List.getD_append_right _ _ _ _ (by omega), hl, Nat.sub_self]
  rfl

/-- What reading a line can do (R76 steps 1 to 6): it gives a record exactly when every check passes. -/
theorem readRecord_eq_ok {line : Line} {r : Record} (h : readRecord line = .ok r) :
    line.getD 0 0 = Config.mark ∧ 12 + 2 * lineReclen line ≤ line.length ∧
    (line.getD (11 + 2 * lineReclen line) 0 = Config.lf ∨ line.getD (11 + 2 * lineReclen line) 0 = Config.cr) ∧
    lineSum line % 256 = 0 ∧ r.rectype = lineRectype line ∧ r.offset = lineOffset line ∧
    r.data = (List.range (lineReclen line)).map (lineData line) := by
  unfold readRecord at h
  split at h
  · cases h
  · split at h
    · cases h
    · split at h
      · cases h
      · split at h
        · cases h
        · split at h
          · cases h
          · next h1 h2 h3 h4 h5 =>
            cases h
            refine ⟨?_, by omega, ?_, by omega, rfl, rfl, rfl⟩
            · exact not_not.mp fun hne => h1 (.inr hne)
            · by_cases hl : line.getD (11 + 2 * lineReclen line) 0 = Config.lf
              · exact .inl hl
              · exact .inr (not_not.mp fun hne => h4 ⟨hl, hne⟩)

/-- A line that passes every check is read as its record (R76). -/
theorem readRecord_of_checks {line : Line} (h1 : line.getD 0 0 = Config.mark) (h4 : 12 + 2 * lineReclen line ≤ line.length)
    (h5 : line.getD (11 + 2 * lineReclen line) 0 = Config.lf ∨ line.getD (11 + 2 * lineReclen line) 0 = Config.cr)
    (h6 : lineSum line % 256 = 0) :
    readRecord line = .ok ⟨lineRectype line, lineOffset line, (List.range (lineReclen line)).map (lineData line)⟩ := by
  unfold readRecord
  rw [if_neg, if_neg (by omega), if_neg (by omega), if_neg, if_neg (by omega)]
  · rintro ⟨hl, hc⟩
    exact h5.elim hl hc
  · rintro (h0 | hm)
    · omega
    · exact hm h1

/-- A record's data is as long as its reclen field says, at most 255 bytes (R39). -/
theorem lineReclen_lt (line : Line) : lineReclen line < 256 := rdhex_lt line 1 2

/-- The sum of the first `n` bytes of a line. -/
theorem foldl_rdhex_congr (s t : Line) (n : Nat)
    (h : ∀ k, k < n → rdhex s (1 + 2 * k) 2 = rdhex t (1 + 2 * k) 2) :
    (List.range n).foldl (fun acc k => acc + rdhex s (1 + 2 * k) 2) 0 =
      (List.range n).foldl (fun acc k => acc + rdhex t (1 + 2 * k) 2) 0 := by
  induction n with
  | zero => rfl
  | succ n ih =>
    rw [List.range_succ, List.foldl_append, List.foldl_append, ih fun k hk => h k (by omega)]
    simp [h n (by omega)]

/-- Reading depends on the mark, the terminator, the two length tests and the hex values of the field characters alone
(R86, R87, R88). -/
theorem readRecord_congr (s t : Line) (h0 : s.getD 0 0 = t.getD 0 0) (hne : s.length = 0 ↔ t.length = 0)
    (h11 : s.length < 11 ↔ t.length < 11)
    (hreq : s.length < 12 + 2 * lineReclen s ↔ t.length < 12 + 2 * lineReclen s)
    (hterm : s.getD (11 + 2 * lineReclen s) 0 = t.getD (11 + 2 * lineReclen s) 0)
    (hf : ∀ i, 1 ≤ i → i ≤ 10 + 2 * lineReclen s → hexval (s.getD i 0) = hexval (t.getD i 0)) :
    readRecord s = readRecord t := by
  have pair : ∀ i k, 1 ≤ i → i + k ≤ 11 + 2 * lineReclen s → rdhex s i k = rdhex t i k := fun i k hi hk =>
    rdhex_congr s t i k fun j hj => hf (i + j) (by omega) (by omega)
  have hr : lineReclen s = lineReclen t := pair 1 2 (by omega) (by omega)
  have ho : lineOffset s = lineOffset t := by rw [lineOffset, lineOffset, pair 3 4 (by omega) (by omega)]
  have ht : lineRectype s = lineRectype t := by rw [lineRectype, lineRectype, pair 7 2 (by omega) (by omega)]
  have hs : lineSum s = lineSum t := by
    rw [lineSum, lineSum, ← hr]
    exact foldl_rdhex_congr s t _ fun k hk => pair (1 + 2 * k) 2 (by omega) (by omega)
  have hd : (List.range (lineReclen s)).map (lineData s) = (List.range (lineReclen s)).map (lineData t) :=
    List.map_congr_left fun i hi => by
      rw [List.mem_range] at hi
      rw [lineData, lineData, pair (9 + 2 * i) 2 (by omega) (by omega)]
  unfold readRecord
  rw [h0, ← hr, ho, ht, hs, hd, hterm]
  simp only [hne, h11, hreq]

end Sys2Proof.Machine
end

