-- ==== Sys2Proof/Laws/HostProcedures.lean ====
section
/-! SUPPORT. What one turn of the reconstructor's loop does, said once: the provers cite `reconstructLoop_line` and do not unfold the loop. -/

namespace Sys2Proof.Machine

/-- `cmd` of a DECODE whose line fits its packet answers the decode result (R78). -/
theorem cmd_decode {cap : Byte} {l : Line} {s : State} (he : s.endInImage) (hr : s.running) (hl : l.length ≤ 65535) :
    cmd (.decode cap l) s =
      .next (decodeResponse (decodeRecordLine l cap), s.respond (decodeResponse (decodeRecordLine l cap))) := by
  have hd : decodePacket (encode (.decode cap l)) = .ok (.decode cap l) := by
    refine (decodePacket_of_length (p := packetL 0x30 cap l) rfl rfl ?_).trans ?_
    · rw [neededLength_L _ (by rw [length_packetL]; omega), countL_packetL _ _ _ hl, length_packetL]
    · rw [lineL_packetL _ _ _ hl]; rfl
  rw [cmd_eq_next he hr hd (show exec (.decode cap l) s = _ from execDecode_eq cap l s), State.lastResponse_respond]

/-- `cmd` of a TRKWARN counts and answers its action (R93). -/
theorem cmd_trkwarn {s : State} (he : s.endInImage) (hr : s.running) :
    cmd .trkwarn s = .next ([statusOk, warnAction s.warn],
      ({ s with warn := countWarning s.warn }).respond [statusOk, warnAction s.warn]) := by
  rw [cmd_eq_next he hr rfl rfl, State.lastResponse_respond]

/-- A Data result carries at most 255 bytes (R79, R39). -/
theorem length_lt_of_data {l : Line} {cap : Byte} {o : Addr} {b : List Byte} (h : decodeRecordLine l cap = .data o b) :
    b.length < 256 := by
  unfold decodeRecordLine at h
  split at h
  · next e _ => cases e <;> cases h
  · next r hr =>
    obtain ⟨-, -, hdata⟩ := (readRecord_eq_ok hr).2.2.2.2
    unfold classify at h
    split at h
    · simp only [classifyData] at h
      split at h
      · cases h
      · cases h
        rw [hdata]
        simpa using lineReclen_lt l
    · exfalso
      unfold classifyEof classifyEsa classifySsa classifyEla classifySla classifyInvalid at h
      revert h
      repeat' split
      all_goals (intro h; cases h)

/-- What R104 asks for after a DECODE: `w` is the count before it, `t` the block after it. -/
def afterDecode (cap : Byte) (rest : List ReadLine) (k : Sink) (ds : List Diagnostic) (w : BitVec 32) (t : State) :
    DecodeResult → Host.Outcome Run Fault Refusal
  | .data o b => andThen (cmd (.trkdata o b) t) fun ru =>
      if completed ru.1 then reconstructLoop cap rest k ds ru.2 else .next (fatalRun .fatalBlock ru.2 k ds)
  | .endOfFile _ => writeSlice k ds t
  | .extendedLinearAddress _ => reconstructLoop cap rest k ds t
  | .ignorable => reconstructLoop cap rest k ds t
  | .bufferTooSmall => .next (fatalRun .fatalCapacity t k ds)
  | .invalidFormat => reconstructLoop cap rest k (ds ++ diagnosticsOf (warnAction w))
      (({ t with warn := countWarning w }).respond [statusOk, warnAction w])
  | .notARecord => reconstructLoop cap rest k (ds ++ diagnosticsOf (warnAction w))
      (({ t with warn := countWarning w }).respond [statusOk, warnAction w])

/-- One turn of the loop on a line that can be sent (R104). -/
theorem reconstructLoop_line (cap : Byte) (l : Line) (rest : List ReadLine) (k : Sink) (ds : List Diagnostic) (s : State)
    (he : s.endInImage) (hr : s.running) (hl : l.length ≤ 65535) :
    reconstructLoop cap (.line l :: rest) k ds s =
      afterDecode cap rest k ds s.warn (s.respond (decodeResponse (decodeRecordLine l cap))) (decodeRecordLine l cap) := by
  simp only [reconstructLoop]
  rw [if_neg (by simp only [Config.maxLine]; omega), cmd_decode he hr hl, andThen_next]
  have hw (r : Packet) := cmd_trkwarn (s := s.respond r) he hr
  cases hd : decodeRecordLine l cap with
  | data o b =>
    have hb := length_lt_of_data hd
    have h1 : responseOffset (decodeResponse (.data o b)) = o := fromBe16_be16 o
    have h2 : responseBytes (decodeResponse (.data o b)) = b := by
      show List.take (BitVec.ofNat 8 b.length).toNat b = b
      rw [List.take_of_length_le]
      simp
      omega
    simp only [h1, h2]
    rfl
  | endOfFile a => rfl
  | extendedLinearAddress a => rfl
  | ignorable => rfl
  | bufferTooSmall => rfl
  | invalidFormat => simp only [hw]; rfl
  | notARecord => simp only [hw]; rfl

/-- A line that cannot be sent ends the run in a refusal (D17). -/
theorem reconstructLoop_long_line (cap : Byte) (l : Line) (rest : List ReadLine) (k : Sink) (ds : List Diagnostic) (s : State)
    (hl : 65535 < l.length) : reconstructLoop cap (.line l :: rest) k ds s = .refused .lineCannotBeSent := if_pos hl

end Sys2Proof.Machine
end

