-- ==== Sys2Proof/Laws/PerInstr.lean ====
section
/-! SUPPORT. The family EncodedLength, one lemma per constructor of Instr: how long an instruction's own encoding is (30_encoding.md R44 for
commands, R39 for record lines). -/

namespace Sys2Proof.Laws.EncodedLength

open Sys2Proof.Machine

/-- The length of a record line with `n` data bytes (R39). -/
def lineLength (n : Nat) : Nat := 12 + 2 * n

/-- The length R44 and R39 give an instruction's encoding. -/
def expected : Instr → Nat
  | .hexval _ => 2
  | .hexchr _ => 2
  | .hex2rd _ _ => 3
  | .hex4rd _ _ _ _ => 5
  | .hex8rd _ _ _ _ _ _ _ _ => 9
  | .hex2wr _ => 2
  | .ckclr => 1
  | .ckadd _ => 2
  | .ckget => 1
  | .cktst => 1
  | .encdat _ bytes => 4 + bytes.length
  | .encela _ => 3
  | .enceof _ => 3
  | .decode _ line => 4 + line.length
  | .trkinit => 1
  | .trkdata _ bytes => 4 + bytes.length
  | .trkwarn => 1
  | .trkslice => 1
  | .imgrd _ => 3
  | .rdstat => 1
  | .recData _ _ data => lineLength data.length
  | .recEof _ data => lineLength data.length
  | .recEsa _ data => lineLength data.length
  | .recSsa _ data => lineLength data.length
  | .recEla _ data => lineLength data.length
  | .recSla _ data => lineLength data.length
  | .recInvalid _ _ data => lineLength data.length

/-- The encoding has the length of its format. -/
def Statement (i : Instr) : Prop := (encode i).length = expected i

/-- A record's line has the length of R39. -/
theorem length_encodeRecord (r : Record) : (encodeRecord r).length = lineLength r.data.length := by
  simp [encodeRecord, lineLength]; omega

theorem hexval (c : Byte) : Statement (.hexval c) := rfl

theorem hexchr (b : Byte) : Statement (.hexchr b) := rfl

theorem hex2rd (c0 c1 : Byte) : Statement (.hex2rd c0 c1) := rfl

theorem hex4rd (c0 c1 c2 c3 : Byte) : Statement (.hex4rd c0 c1 c2 c3) := rfl

theorem hex8rd (c0 c1 c2 c3 c4 c5 c6 c7 : Byte) : Statement (.hex8rd c0 c1 c2 c3 c4 c5 c6 c7) := rfl

theorem hex2wr (b : Byte) : Statement (.hex2wr b) := rfl

theorem ckclr : Statement .ckclr := rfl

theorem ckadd (b : Byte) : Statement (.ckadd b) := rfl

theorem ckget : Statement .ckget := rfl

theorem cktst : Statement .cktst := rfl

theorem encdat (offset : Addr) (bytes : List Byte) : Statement (.encdat offset bytes) := length_packetWD _ offset bytes

theorem encela (ulba : Addr) : Statement (.encela ulba) := rfl

theorem enceof (start : Addr) : Statement (.enceof start) := rfl

theorem decode (cap : Byte) (line : Line) : Statement (.decode cap line) := length_packetL _ cap line

theorem trkinit : Statement .trkinit := rfl

theorem trkdata (offset : Addr) (bytes : List Byte) : Statement (.trkdata offset bytes) := length_packetWD _ offset bytes

theorem trkwarn : Statement .trkwarn := rfl

theorem trkslice : Statement .trkslice := rfl

theorem imgrd (a : Addr) : Statement (.imgrd a) := rfl

theorem rdstat : Statement .rdstat := rfl

theorem recData (cap : Byte) (offset : Addr) (data : List Byte) : Statement (.recData cap offset data) := length_encodeRecord _

theorem recEof (offset : Addr) (data : List Byte) : Statement (.recEof offset data) := length_encodeRecord _

theorem recEsa (offset : Addr) (data : List Byte) : Statement (.recEsa offset data) := length_encodeRecord _

theorem recSsa (offset : Addr) (data : List Byte) : Statement (.recSsa offset data) := length_encodeRecord _

theorem recEla (offset : Addr) (data : List Byte) : Statement (.recEla offset data) := length_encodeRecord _

theorem recSla (offset : Addr) (data : List Byte) : Statement (.recSla offset data) := length_encodeRecord _

theorem recInvalid (rectype : Byte) (offset : Addr) (data : List Byte) : Statement (.recInvalid rectype offset data) := length_encodeRecord _

end Sys2Proof.Laws.EncodedLength
end

