-- ==== Sys2Proof/Machine/Assembler.lean ====
section
/-! DEFINITION. The spec's command notation `MNEMONIC operands` (30_encoding.md R51, R52) as an assembler from text to commands: it computes
the count and length fields of formats WD and L by way of `encode`. What R51 leaves open of the notation is in log entry 7. -/

namespace Sys2Proof.Machine

/-- The marks of a line of assembly text. -/
inductive AsmToken
  | name (cs : List Char)
  | num (n : Nat)
  | str (s : List Byte)
  | openList
  | closeList
  | comma
  deriving DecidableEq, Repr

/-- An operand (R51): a number or a quoted character, a character string, a byte list. -/
inductive AsmOperand
  | num (n : Nat)
  | str (s : List Byte)
  | list (bs : List Byte)
  deriving DecidableEq, Repr

/-- The value of a hex digit of a literal. -/
def asmDigit (c : Char) : Option Nat :=
  if '0' ≤ c ∧ c ≤ '9' then some (c.toNat - 48)
  else if 'A' ≤ c ∧ c ≤ 'F' then some (c.toNat - 55)
  else if 'a' ≤ c ∧ c ≤ 'f' then some (c.toNat - 87)
  else none

/-- The digits of a literal in a base, and what follows it. -/
def asmDigits (base acc : Nat) (cs : List Char) : Nat × List Char :=
  match cs with
  | [] => (acc, [])
  | c :: rest =>
    match asmDigit c with
    | none => (acc, c :: rest)
    | some d => if d < base then asmDigits base (acc * base + d) rest else (acc, c :: rest)

/-- One character of a quoted text, C escapes included (R51), and what follows it. -/
def asmChar (cs : List Char) : Option (Byte × List Char) :=
  match cs with
  | '\\' :: 'n' :: rest => some (0x0A, rest)
  | '\\' :: 'r' :: rest => some (0x0D, rest)
  | '\\' :: 't' :: rest => some (0x09, rest)
  | '\\' :: '0' :: rest => some (0x00, rest)
  | '\\' :: '\\' :: rest => some (0x5C, rest)
  | '\\' :: '\'' :: rest => some (0x27, rest)
  | '\\' :: '"' :: rest => some (0x22, rest)
  | '\\' :: 'x' :: h :: l :: rest =>
    match asmDigit h, asmDigit l with
    | some a, some b => some (BitVec.ofNat 8 (a * 16 + b), rest)
    | _, _ => none
  | '\\' :: _ => none
  | c :: rest => if c.toNat < 256 then some (BitVec.ofNat 8 c.toNat, rest) else none
  | [] => none

/-- The characters of a string up to its closing quote, and what follows it. -/
def asmString (fuel : Nat) (cs : List Char) : Option (List Byte × List Char) :=
  match fuel, cs with
  | 0, _ => none
  | _, '"' :: rest => some ([], rest)
  | n + 1, cs =>
    match asmChar cs with
    | none => none
    | some (b, rest) => (asmString n rest).map fun r => (b :: r.1, r.2)

/-- The letters and digits of a name, and what follows it. -/
def asmName (cs : List Char) : List Char × List Char := (cs.takeWhile Char.isAlphanum, cs.dropWhile Char.isAlphanum)

/-- The tokens of a line. -/
def asmTokens (fuel : Nat) (cs : List Char) : Option (List AsmToken) :=
  match fuel, cs with
  | _, [] => some []
  | 0, _ => none
  | n + 1, ' ' :: rest => asmTokens n rest
  | n + 1, '[' :: rest => (asmTokens n rest).map (.openList :: ·)
  | n + 1, ']' :: rest => (asmTokens n rest).map (.closeList :: ·)
  | n + 1, ',' :: rest => (asmTokens n rest).map (.comma :: ·)
  | n + 1, '\'' :: rest =>
    match asmChar rest with
    | some (b, '\'' :: after) => (asmTokens n after).map (.num b.toNat :: ·)
    | _ => none
  | n + 1, '"' :: rest =>
    match asmString (rest.length + 1) rest with
    | some (s, after) => (asmTokens n after).map (.str s :: ·)
    | none => none
  | n + 1, '0' :: 'x' :: d :: rest =>
    if (asmDigit d).isSome then
      let r := asmDigits 16 0 (d :: rest)
      (asmTokens n r.2).map (.num r.1 :: ·)
    else none
  | n + 1, c :: rest =>
    if c.isDigit then
      let r := asmDigits 10 0 (c :: rest)
      (asmTokens n r.2).map (.num r.1 :: ·)
    else if c.isAlpha then
      let r := asmName (c :: rest)
      (asmTokens n r.2).map (.name r.1 :: ·)
    else none

/-- The numbers of a byte list after its opening bracket, and what follows its closing bracket. -/
def asmList (ts : List AsmToken) : Option (List Byte × List AsmToken) :=
  match ts with
  | .closeList :: rest => some ([], rest)
  | .num v :: .closeList :: rest => if v < 256 then some ([BitVec.ofNat 8 v], rest) else none
  | .num v :: .comma :: .num w :: rest =>
    if v < 256 then (asmList (.num w :: rest)).map fun r => (BitVec.ofNat 8 v :: r.1, r.2) else none
  | _ => none

/-- One operand, and what follows it. -/
def asmOperand (ts : List AsmToken) : Option (AsmOperand × List AsmToken) :=
  match ts with
  | .num v :: rest => some (.num v, rest)
  | .str s :: rest => some (.str s, rest)
  | .openList :: rest => (asmList rest).map fun r => (.list r.1, r.2)
  | _ => none

/-- Operands separated by commas. -/
def asmOperands (fuel : Nat) (ts : List AsmToken) : Option (List AsmOperand) :=
  match fuel with
  | 0 => none
  | n + 1 =>
    match asmOperand ts with
    | some (o, []) => some [o]
    | some (o, .comma :: rest) => (asmOperands n rest).map (o :: ·)
    | _ => none

/-- Format N of R44. -/
def asmN (i : Instr) (ops : List AsmOperand) : Option (List Instr) := if ops = [] then some [i] else none

/-- Format B of R44. -/
def asmB (mk : Byte → Instr) (ops : List AsmOperand) : Option (List Instr) :=
  match ops with
  | [.num v] => if v < 256 then some [mk (BitVec.ofNat 8 v)] else none
  | _ => none

/-- Format W of R44. -/
def asmW (mk : Addr → Instr) (ops : List AsmOperand) : Option (List Instr) :=
  match ops with
  | [.num v] => if v < 65536 then some [mk (BitVec.ofNat 16 v)] else none
  | _ => none

/-- Format WD of R44; the count field is `encode`'s. -/
def asmWD (mk : Addr → List Byte → Instr) (ops : List AsmOperand) : Option (List Instr) :=
  match ops with
  | [.num v, .list bs] => if v < 65536 ∧ bs.length ≤ Config.maxReclen then some [mk (BitVec.ofNat 16 v) bs] else none
  | _ => none

/-- Format L of R44; the length field is `encode`'s. -/
def asmL (mk : Byte → Line → Instr) (ops : List AsmOperand) : Option (List Instr) :=
  match ops with
  | [.num v, .str l] => if v < 256 ∧ l.length ≤ Config.maxLine then some [mk (BitVec.ofNat 8 v) l] else none
  | _ => none

/-- Formats S2, S4 and S8 of R44, by the characters of the string. -/
def asmS (mk : List Byte → Option Instr) (ops : List AsmOperand) : Option (List Instr) :=
  match ops with
  | [.str s] => (mk s).map ([·])
  | _ => none

/-- A pseudo-command over a byte list (R52). -/
def asmBytes (mk : List Byte → List Instr) (ops : List AsmOperand) : Option (List Instr) :=
  match ops with
  | [.list bs] => some (mk bs)
  | _ => none

/-- The commands and pseudo-commands by name (R45, R52). -/
def asmCommand (name : List Char) (ops : List AsmOperand) : Option (List Instr) :=
  if name = "HEXVAL".toList then asmB .hexval ops
  else if name = "HEXCHR".toList then asmB .hexchr ops
  else if name = "HEX2RD".toList then
    asmS (fun s => match s with | [c0, c1] => some (.hex2rd c0 c1) | _ => none) ops
  else if name = "HEX4RD".toList then
    asmS (fun s => match s with | [c0, c1, c2, c3] => some (.hex4rd c0 c1 c2 c3) | _ => none) ops
  else if name = "HEX8RD".toList then
    asmS (fun s => match s with
      | [c0, c1, c2, c3, c4, c5, c6, c7] => some (.hex8rd c0 c1 c2 c3 c4 c5 c6 c7)
      | _ => none) ops
  else if name = "HEX2WR".toList then asmB .hex2wr ops
  else if name = "CKCLR".toList then asmN .ckclr ops
  else if name = "CKADD".toList then asmB .ckadd ops
  else if name = "CKGET".toList then asmN .ckget ops
  else if name = "CKTST".toList then asmN .cktst ops
  else if name = "ENCDAT".toList then asmWD .encdat ops
  else if name = "ENCELA".toList then asmW .encela ops
  else if name = "ENCEOF".toList then asmW .enceof ops
  else if name = "DECODE".toList then asmL .decode ops
  else if name = "TRKINIT".toList then asmN .trkinit ops
  else if name = "TRKDATA".toList then asmWD .trkdata ops
  else if name = "TRKWARN".toList then asmN .trkwarn ops
  else if name = "TRKSLICE".toList then asmN .trkslice ops
  else if name = "IMGRD".toList then asmW .imgrd ops
  else if name = "RDSTAT".toList then asmN .rdstat ops
  else if name = "CKSUM".toList then asmBytes cksumCommands ops
  else if name = "CKVERIFY".toList then asmBytes ckverifyCommands ops
  else none

/-- The commands a line of assembly text spells; none for text that spells no command. -/
def assemble (text : List Char) : Option (List Instr) :=
  match asmTokens (text.length + 1) text with
  | some [.name n] => asmCommand n []
  | some (.name n :: rest) => (asmOperands (rest.length + 1) rest).bind (asmCommand n)
  | _ => none

end Sys2Proof.Machine
end

