-- ==== Sys2Proof/Tests/Slice0.lean ====
section
/-! SUPPORT. Tests: the WellFormed smoke test, the decoding of a written-out word for every constructor, small results from
95_test_vectors.md, and a witness for every statement with hypotheses. Every expected value is the spec's (the vector or rule is named). -/

namespace Sys2Proof.Tests

open Sys2Proof Sys2Proof.Machine

/-- The ASCII bytes of a string (R9). -/
def ascii (s : String) : List Byte := s.toList.map fun c => BitVec.ofNat 8 c.toNat

/-- The state a step gives, if it gives one. -/
def nextOf (x : Host.Outcome State Fault Refusal) : Option State :=
  match x with
  | .next t => some t
  | .fault _ => none
  | .refused _ => none

/-- The block after one packet. -/
def sent (p : Packet) (s : State) : Option State := nextOf (step (sendNext p s))

/-- The response to one packet. -/
def answer (p : Packet) (s : State) : Option Packet := (sent p s).map State.lastResponse

/-- The value of a run that gives one. -/
def ran (x : Host.Outcome Run Fault Refusal) : Option Run :=
  match x with
  | .next r => some r
  | .fault _ => none
  | .refused _ => none

/-- After `41 00 10 03 01 02 03` (L2.5), with a running sum. -/
def dataState : State :=
  { State.reset with ck := 0x09, startAddr := 0x0010, endAddr := 0x13, img := [(0x10, 1), (0x11, 2), (0x12, 3)] }

/-- Program P5 after step 4. -/
def haltedState : State :=
  { State.reset with faultCode := 0xE5, startAddr := 0xFFFF, endAddr := 0x10000, img := [(0xFFFF, 0xAA)] }

/-! ### WellFormed refuses each ill-formed term -/

theorem test_wf_encdat : (Instr.encdat 0 (List.replicate 256 0)).wf = false := by
  simp only [Instr.wf, List.length_replicate]; decide
theorem test_wf_trkdata : (Instr.trkdata 0 (List.replicate 256 0)).wf = false := by
  simp only [Instr.wf, List.length_replicate]; decide
theorem test_wf_decode : (Instr.decode 0 (List.replicate 65536 0)).wf = false := by
  simp only [Instr.wf, List.length_replicate]; decide
theorem test_wf_recData : (Instr.recData 255 0 (List.replicate 256 0)).wf = false := by
  simp only [Instr.wf, List.length_replicate]; decide
theorem test_wf_recEof : (Instr.recEof 0 (List.replicate 256 0)).wf = false := by
  simp only [Instr.wf, List.length_replicate]; decide
theorem test_wf_recEsa : (Instr.recEsa 0 (List.replicate 256 0)).wf = false := by
  simp only [Instr.wf, List.length_replicate]; decide
theorem test_wf_recSsa : (Instr.recSsa 0 (List.replicate 256 0)).wf = false := by
  simp only [Instr.wf, List.length_replicate]; decide
theorem test_wf_recEla : (Instr.recEla 0 (List.replicate 256 0)).wf = false := by
  simp only [Instr.wf, List.length_replicate]; decide
theorem test_wf_recSla : (Instr.recSla 0 (List.replicate 256 0)).wf = false := by
  simp only [Instr.wf, List.length_replicate]; decide
theorem test_wf_recInvalid_rectype : (Instr.recInvalid 0x05 0 []).wf = false := by decide
theorem test_wf_recInvalid_data : (Instr.recInvalid 0x06 0 (List.replicate 256 0)).wf = false := by
  simp only [Instr.wf, List.length_replicate]; decide
theorem test_wf_record : (Record.mk 0x00 0 (List.replicate 256 0)).wf = false := by
  simp only [Record.wf, List.length_replicate]; decide

/-! ### Decoding: a word of every constructor, from R44, R45 and R39 -/

theorem test_dec_hexval : decodePacket [0x01, 0x66] = .ok (.hexval 0x66) := by decide
theorem test_dec_hexchr : decodePacket [0x02, 0x1C] = .ok (.hexchr 0x1C) := by decide
theorem test_dec_hex2rd : decodePacket [0x03, 0x46, 0x37] = .ok (.hex2rd 0x46 0x37) := by decide
theorem test_dec_hex4rd : decodePacket [0x04, 0x31, 0x41, 0x32, 0x62] = .ok (.hex4rd 0x31 0x41 0x32 0x62) := by decide
theorem test_dec_hex8rd : decodePacket [0x05, 0x31, 0x32, 0x33, 0x34, 0x35, 0x36, 0x37, 0x38] =
    .ok (.hex8rd 0x31 0x32 0x33 0x34 0x35 0x36 0x37 0x38) := by decide
theorem test_dec_hex2wr : decodePacket [0x06, 0xF7] = .ok (.hex2wr 0xF7) := by decide
theorem test_dec_ckclr : decodePacket [0x10] = .ok .ckclr := by decide
theorem test_dec_ckadd : decodePacket [0x11, 0xF7] = .ok (.ckadd 0xF7) := by decide
theorem test_dec_ckget : decodePacket [0x12] = .ok .ckget := by decide
theorem test_dec_cktst : decodePacket [0x13] = .ok .cktst := by decide
theorem test_dec_encdat : decodePacket [0x20, 0x12, 0x34, 0x02, 0xAB, 0xCD] = .ok (.encdat 0x1234 [0xAB, 0xCD]) := by decide
theorem test_dec_encela : decodePacket [0x21, 0x12, 0x34] = .ok (.encela 0x1234) := by decide
theorem test_dec_enceof : decodePacket [0x22, 0x12, 0x34] = .ok (.enceof 0x1234) := by decide
theorem test_dec_decode : decodePacket [0x30, 0x05, 0x00, 0x02, 0x78, 0x0A] = .ok (.decode 0x05 [0x78, 0x0A]) := by decide
theorem test_dec_trkinit : decodePacket [0x40] = .ok .trkinit := by decide
theorem test_dec_trkdata : decodePacket [0x41, 0x00, 0x10, 0x03, 1, 2, 3] = .ok (.trkdata 0x0010 [1, 2, 3]) := by decide
theorem test_dec_trkwarn : decodePacket [0x42] = .ok .trkwarn := by decide
theorem test_dec_trkslice : decodePacket [0x43] = .ok .trkslice := by decide
theorem test_dec_imgrd : decodePacket [0x44, 0x12, 0x34] = .ok (.imgrd 0x1234) := by decide
theorem test_dec_rdstat : decodePacket [0x45] = .ok .rdstat := by decide
theorem test_dec_recData : decodeLine 7 (ascii ":01FFFF00AB56\n") = .ok (.recData 7 0xFFFF [0xAB]) := by decide
theorem test_dec_recEof : decodeLine 7 (ascii ":00123401B9\n") = .ok (.recEof 0x1234 []) := by decide
theorem test_dec_recEsa : decodeLine 7 (ascii ":020000021000EC\n") = .ok (.recEsa 0 [0x10, 0x00]) := by decide
theorem test_dec_recSsa : decodeLine 7 (ascii ":0400000300001000E9\n") = .ok (.recSsa 0 [0, 0, 0x10, 0]) := by decide
theorem test_dec_recEla : decodeLine 7 (ascii ":020000041234B4\n") = .ok (.recEla 0 [0x12, 0x34]) := by decide
theorem test_dec_recSla : decodeLine 7 (ascii ":0400000500001000E7\n") = .ok (.recSla 0 [0, 0, 0x10, 0]) := by decide
theorem test_dec_recInvalid : decodeLine 7 (ascii ":00000006FA\n") = .ok (.recInvalid 0x06 0 []) := by decide
theorem test_dec_line_failures : decodeLine 7 (ascii "x\n") = .error .notARecord ∧ decodeLine 7 (ascii ":00000001FF") = .error .invalidFormat ∧
    decodeLine 7 (ascii ":00000001FE\n") = .error .invalidFormat := by decide

/-- The opcode table's rows: a command word, a command word with its operand words zero, a row of the record table, a word in both. -/
theorem test_table_words : decodeTableWord 8 0x10 = some .ckclr ∧ decodeTableWord 32 0x20 = some (.encdat 0 []) ∧
    decodeTableWord 8 0x00 = some (.recData 0 0 []) ∧ decodeTableWord 8 0xFF = some (.recInvalid 0xFF 0 []) ∧
    decodeTableWord 8 0x01 = some (.hexval 0) := by decide
/-- `withFetchWord` makes the very next step run the word's instruction (L2.2, CKGET). -/
theorem test_fetch_word : (nextOf (step (State.reset.withFetchWord 8 0x12))).map State.lastResponse = some [0x00, 0x00] := by decide

/-! ### Results: vectors of 95_test_vectors.md, at most two for an instruction -/

theorem test_hexval_letter : answer [0x01, 0x66] dataState = some [0x00, 0x0F] := by decide
theorem test_hexval_below_letter : answer [0x01, 0x60] dataState = some [0x00, 0x00] := by decide
theorem test_hexchr_letter : answer [0x02, 0x0C] dataState = some [0x00, 0x43] := by decide
theorem test_hexchr_reserved : (sent [0x02, 0x1C] dataState).map (fun t => (t.lastResponse, t.faultCode, t.ck, t.img)) =
    some ([0xE3], 0xE3, 0x09, dataState.img) := by decide
theorem test_hex2rd : answer [0x03, 0x47, 0x31] dataState = some [0x00, 0x01] := by decide
theorem test_hex4rd : answer [0x04, 0x31, 0x41, 0x32, 0x62] dataState = some [0x00, 0x1A, 0x2B] := by decide
theorem test_hex8rd : answer [0x05, 0x44, 0x45, 0x41, 0x44, 0x62, 0x65, 0x65, 0x66] dataState = some [0x00, 0xDE, 0xAD, 0xBE, 0xEF] := by
  decide
theorem test_hex2wr : answer [0x06, 0x0A] dataState = some [0x00, 0x30, 0x41] := by decide
theorem test_ckclr : (sent [0x10] dataState).map State.ck = some 0x00 := by decide
theorem test_ckadd_wraps : (sent [0x11, 0xF7] dataState).map (fun t => (t.ck, t.lastResponse)) = some (0x00, [0x00]) := by decide
theorem test_ckget : answer [0x12] dataState = some [0x00, 0xF7] := by decide
theorem test_cktst : answer [0x13] dataState = some [0x00, 0x00] ∧ answer [0x13] State.reset = some [0x00, 0x01] := by decide
theorem test_encdat : answer [0x20, 0x00, 0x00, 0x03, 1, 2, 3] dataState = some ([0x00, 0x00, 0x12] ++ ascii ":03000000010203F7\n") := by decide
theorem test_encdat_empty : answer [0x20, 0x00, 0x00, 0x00] dataState = some [0xE4] := by decide
theorem test_encela : answer [0x21, 0x12, 0x34] dataState = some ([0x00, 0x00, 0x10] ++ ascii ":020000041234B4\n") := by decide
theorem test_enceof : answer [0x22, 0x12, 0x34] dataState = some ([0x00, 0x00, 0x0C] ++ ascii ":00123401B9\n") := by decide
theorem test_decode_lowercase : kindAndPayload (decodeRecordLine (ascii ":03000000010203f7\n") 3) = [0x00, 0x00, 0x00, 0x03, 1, 2, 3] := by decide
theorem test_decode_empty_packet : answer [0x30, 0xFF, 0x00, 0x00] dataState = some [0x00, 0x12] := by decide
theorem test_recData_too_small : kindAndPayload (decodeRecordLine (ascii ":03000000010203F7\n") 2) = [0x10] := by decide
theorem test_recEof : kindAndPayload (decodeRecordLine (ascii ":G0000001FF\nXYZ") 255) = [0x01, 0x00, 0x00] := by decide
theorem test_recEof_reclen : kindAndPayload (decodeRecordLine (ascii ":0100000100FE\n") 255) = [0x11] := by decide
theorem test_recEsa : kindAndPayload (decodeRecordLine (ascii ":020000021000EC\n") 0) = [0x03] := by decide
theorem test_recEsa_offset : kindAndPayload (decodeRecordLine (ascii ":020010021000DC\n") 0) = [0x12] := by decide
theorem test_recSsa : kindAndPayload (decodeRecordLine (ascii ":0400000300001000E9\n") 0) = [0x03] := by decide
theorem test_recSsa_reclen : kindAndPayload (decodeRecordLine (ascii ":020000030000FB\n") 0) = [0x12] := by decide
theorem test_recEla : kindAndPayload (decodeRecordLine (ascii ":020000041234B4\n") 0) = [0x02, 0x12, 0x34] := by decide
theorem test_recEla_offset : kindAndPayload (decodeRecordLine (ascii ":020010041234A4\n") 0) = [0x12] := by decide
theorem test_recSla : kindAndPayload (decodeRecordLine (ascii ":0400000500001000E7\n") 0) = [0x03] := by decide
theorem test_recInvalid : kindAndPayload (decodeRecordLine (ascii ":00000006FA\n") 0) = [0x11] := by decide
theorem test_decode_short_line : kindAndPayload (decodeRecordLine (ascii ":1000000001020304F7\n") 255) = [0x11] := by decide
theorem test_trkinit : (sent [0x40] dataState).map (fun t => (t.startAddr, t.endAddr, t.img, t.ck)) = some (0xFFFF, 0, [], 0x09) := by decide
theorem test_trkdata_top : (sent [0x41, 0xFF, 0xFF, 0x01, 0xAA] State.reset).map (fun t => (t.startAddr, t.endAddr, t.img)) =
    some (0xFFFF, 0x10000, [(0xFFFF, 0xAA)]) := by decide
theorem test_trkdata_overrun : answer [0x41, 0xFF, 0xFF, 0x02, 0xAA, 0xBB] dataState = some [0xE5] := by decide
theorem test_trkwarn_cap : answer [0x42] { State.reset with warn := 9 } = some [0x00, 0x01] ∧
    answer [0x42] { State.reset with warn := 10 } = some [0x00, 0x02] ∧ answer [0x42] { State.reset with warn := 11 } = some [0x00, 0x00] := by decide
theorem test_trkwarn_saturates : (sent [0x42] { State.reset with warn := 0xFFFFFFFF }).map (fun t => (t.warn, t.lastResponse)) =
    some (0xFFFFFFFF, [0x00, 0x00]) := by decide
theorem test_trkslice : answer [0x43] dataState = some [0x00, 0x00, 0x10, 0x00, 0x00, 0x03, 1, 2, 3] := by decide
theorem test_trkslice_empty_run : answer [0x43] State.reset = some [0x00, 0xFF, 0xFF, 0x00, 0x00, 0x00] := by decide
theorem test_imgrd : answer [0x44, 0x00, 0x11] dataState = some [0x00, 0x02] ∧ answer [0x44, 0x00, 0x20] dataState = some [0x00, 0x00] := by decide
theorem test_rdstat : answer [0x45] { dataState with ck := 0 } = some [0x00, 0x00, 0x00, 0x10, 0x00, 0x00, 0x13, 0x00, 0x00, 0x00, 0x00] := by decide

/-- L2.6: the prologue's faults and their priority. -/
theorem test_prologue_faults : answer [] State.reset = some [0xE2] ∧ answer [0x07] State.reset = some [0xE1] ∧
    answer [0xFF, 0x01, 0x02] State.reset = some [0xE1] ∧ answer [0x10, 0x00] State.reset = some [0xE2] ∧
    answer [0x41, 0x00, 0x00] State.reset = some [0xE2] ∧ answer [0x30, 0x00, 0x00, 0x01] State.reset = some [0xE2] := by decide
/-- P5 steps 5 to 7: the halted block. -/
theorem test_halted : answer [0x45] haltedState = some [0xE5] ∧ answer [0x10] haltedState = some [0xE5] ∧ answer [] haltedState = some [0xE5] := by
  decide
/-- P5 step 8, L2.7. -/
theorem test_reset_action : (nextOf (step { haltedState with port := [.reset] })).map (fun t => (t.faultCode, t.startAddr, t.endAddr, t.img)) =
    some (0x00, 0xFFFF, 0, []) := by decide

/-- R51's examples, and CKSUM (R52). -/
theorem test_assembler : assemble "CKADD 0x03".toList = some [.ckadd 3] ∧ assemble "HEXVAL 'a'".toList = some [.hexval 0x61] ∧
    assemble "HEX4RD \"1A2b\"".toList = some [.hex4rd 0x31 0x41 0x32 0x62] ∧
    assemble "ENCDAT 0x0010, [0x01, 0x02]".toList = some [.encdat 0x0010 [1, 2]] ∧
    assemble "CKSUM [0x02, 0x04]".toList = some [.ckclr, .ckadd 2, .ckadd 4, .ckget] := by decide
theorem test_assembler_line : assemble "DECODE 255, \":00000001FF\\n\"".toList = some [.decode 255 (ascii ":00000001FF\n")] := by decide
/-- ACCEPT (R52) of P3 step 9's response. -/
theorem test_accept : acceptCommands [0x00, 0x00, 0x01, 0x04, 0x02, 0x14, 0x15] = some [.trkdata 0x0104 [0x14, 0x15]] ∧
    acceptCommands [0x00, 0x12] = none ∧ acceptCommands [0xE1] = none := by decide

/-- Program P2. -/
theorem test_convert : (ran (convert 0x0100 4 [.bytes [0x10, 0x11, 0x12, 0x13], .bytes [0x14, 0x15]] ⟨[], none⟩ State.reset)).map
    (fun r => (r.outcome, r.sink.written)) =
    some (.ok, ascii ":020000040000FA\n:0401000010111213B5\n:020104001415D0\n:00000001FF\n") := by decide
/-- Program P3 from line 2 to line 6. -/
theorem test_reconstruct : (ran (reconstruct 255 [.line (ascii "hello\n"), .line (ascii ":020104001415D0\n"), .line (ascii ":00000001FF\n"),
    .line (ascii ":02000800AABB91\n")] ⟨[], none⟩ State.reset)).map (fun r => (r.outcome, r.sink.written, r.diagnostics)) =
    some (.ok, [0x14, 0x15], [.warning]) := by decide
/-- Program P6 steps 1 to 5: a zero-length record at 0x0020 raises END (R92; log entry 13). -/
theorem test_p6_zero_length :
    (match cmdAll [] [.trkinit, .trkdata 0x0010 [1, 2, 3, 4], .trkdata 0x0012 [9], .trkdata 0x0020 [], .trkslice] State.reset with
      | .next rt => some rt.1
      | _ => none) = some ([0x00, 0x00, 0x10, 0x00, 0x00, 0x10, 1, 2, 9, 4] ++ List.replicate 12 0x00) := by decide
/-- A failing write, the second one (R106). -/
theorem test_convert_io : (ran (convert 0 4 [] ⟨[], some 1⟩ State.reset)).map (fun r => (r.outcome, r.diagnostics)) =
    some (.fatalIo, [.fatal]) := by decide

/-! ### Witnesses: states and operands that meet a statement's hypotheses, at the boundaries of its clauses -/

theorem witness_ResetRestoresEveryElement : ∃ rest, haltedState.endInImage ∧ haltedState.faultLegal ∧
    ({ haltedState with port := [.reset, .command [0x45]] } : State).port = .reset :: rest := ⟨_, by decide, by decide, rfl⟩

theorem witness_ResetKeepsTheHostsSide : ∃ t, ({ haltedState with port := [.reset] } : State).port = .reset :: [] ∧
    step { haltedState with port := [.reset] } = .next t := ⟨_, rfl, rfl⟩

theorem dataState_inv : dataState.Inv := by
  refine ⟨by decide, by decide, by decide, by decide, fun a ha => ?_⟩
  have h : ∀ b : Nat, dataState.img.read b ≠ 0 → b = 0x10 ∨ b = 0x11 ∨ b = 0x12 := by
    intro b hb
    by_contra hn
    rw [not_or, not_or] at hn
    exact hb (by simp [dataState, Memory.read, hn])
  rcases h a ha with rfl | rfl | rfl <;> decide

theorem witness_EveryStepKeepsTheInvariant : ∃ s t : State, s.Inv ∧ step s = .next t ∧ t.endAddr = 0x10000 ∧ t.img ≠ s.img :=
  ⟨{ dataState with port := [.command [0x41, 0xFF, 0xFF, 0x01, 0xAA]] }, _,
    ⟨dataState_inv.1, dataState_inv.2, dataState_inv.3, dataState_inv.4, dataState_inv.5⟩, rfl, by decide, by decide⟩

theorem witness_CommandPacketsDecodeToTheirCommands : (Instr.trkdata 0xFFFF [0xAA]).wf = true ∧ (Instr.trkdata 0xFFFF [0xAA]).isRecord = false ∧
    (Instr.encdat 0 (List.replicate 255 0xAA)).wf = true := by
  refine ⟨by decide, by decide, ?_⟩
  simp only [Instr.wf, List.length_replicate]; decide

theorem witness_DecodedCommandsEncodeToTheirPacket : ∃ i, decodePacket [0x20, 0x12, 0x34, 0x01, 0xAB] = .ok i :=
  ⟨.encdat 0x1234 [0xAB], by decide⟩

theorem witness_RecordLinesDecodeToTheirRows : (Instr.recData 5 0x1234 [0xAB]).wf = true ∧ (Instr.recData 5 0x1234 [0xAB]).isRecord = true ∧
    (∀ c o d, Instr.recData 5 0x1234 [0xAB] = .recData c o d → c = 5) ∧ (Instr.recInvalid 0x06 0xFFFF []).wf = true ∧
    (Instr.recInvalid 0xFF 0xFFFF []).wf = true := by
  refine ⟨by decide, by decide, fun c o d h => ?_, by decide, by decide⟩
  cases h; rfl

/-- A running state with one packet at its port, as `StepRunsTheDecodedCommand` and `IllegalEncodingsRaiseTheirFaults` take it. -/
theorem witness_StepRunsTheDecodedCommand : let s : State := { dataState with port := [.command [0x11, 0xF7]] }
    s.endInImage ∧ s.running ∧ s.port = .command [0x11, 0xF7] :: [] ∧ decodePacket [0x11, 0xF7] = .ok (.ckadd 0xF7) := by decide

/-- One packet for each clause: empty, the opcodes at the map's edges, each format one byte short and one byte long, HEXCHR at 0x10. -/
theorem witness_IllegalEncodingsRaiseTheirFaults :
    dataState.endInImage ∧ dataState.running ∧
    (∀ op ∈ ([0x00, 0x07, 0x0F, 0x14, 0x1F, 0x23, 0x2F, 0x31, 0x3F, 0x46, 0xFF] : List Byte), answer [op] dataState = some [0xE1]) ∧
    (∀ p ∈ ([[], [0x10, 0x00], [0x11], [0x11, 0x00, 0x00], [0x21, 0x00], [0x44, 0x00, 0x00, 0x00], [0x04], [0x05, 0x00], [0x41, 0x00, 0x00],
      [0x20, 0x00, 0x00, 0x02, 0x01], [0x30, 0x00, 0x00], [0x30, 0x00, 0x00, 0x01]] : List Packet), answer p dataState = some [0xE2]) ∧
    answer [0x02, 0x10] dataState = some [0xE3] ∧ answer [0x02, 0x0F] dataState = some [0x00, 0x46] := by decide

theorem witness_HaltedBlockOnlyAnswersUntilReset :
    (let s : State := { haltedState with port := [.command [0x45]] };
      s.endInImage ∧ s.faultLegal ∧ s.halted ∧ s.port = .command [0x45] :: []) ∧
    (∃ t, step { haltedState with port := [.reset] } = .next t ∧ t.running) := ⟨by decide, _, rfl, by decide⟩

theorem witness_FaultEntryIsPrecise : ∃ t, dataState.running ∧
    step { dataState with port := [.command [0x41, 0xFF, 0xFF, 0x02, 0xAA, 0xBB]] } = .next t ∧ t.halted := ⟨_, by decide, rfl, by decide⟩

/-- One packet for each of the five codes and one for none. -/
theorem witness_FaultCodesHaveTheirCauses : dataState.running ∧
    ([[0x00], [], [0x02, 0x1C], [0x20, 0x00, 0x00, 0x00], [0x41, 0xFF, 0xFF, 0x02, 0xAA, 0xBB], [0x10]].map fun p =>
      (sent p dataState).map State.faultCode) = [some 0xE1, some 0xE2, some 0xE3, some 0xE4, some 0xE5, some 0x00] := by decide

theorem witness_EveryCommandIsAnsweredOnce : (∃ rest, haltedState.endInImage ∧ haltedState.faultLegal ∧
      ({ haltedState with port := [.command []] } : State).port = .command [] :: rest) ∧
    dataState.endInImage ∧ dataState.faultLegal := ⟨⟨_, by decide, by decide, rfl⟩, by decide, by decide⟩

theorem witness_IdleBlockKeepsItsState : haltedState.endInImage ∧ haltedState.faultLegal ∧ haltedState.port = [] := by decide

theorem witness_UnreachableStatesHaveNoStep : 0x10000 < ({ State.reset with endAddr := 0x10001 } : State).endAddr.toNat ∧
    ({ State.reset with faultCode := 0x01 } : State).endInImage ∧
    (0x01 : Byte) ∉ ([0x00, 0xE1, 0xE2, 0xE3, 0xE4, 0xE5] : List Byte) ∧ (0xE6 : Byte) ∉ ([0x00, 0xE1, 0xE2, 0xE3, 0xE4, 0xE5] : List Byte) := by
  decide

/-- A change of each element, by a command listed for it. -/
theorem witness_OnlyListedCommandsWriteEachElement : dataState.imageCanonical ∧
    (∃ t, exec (.ckadd 1) dataState = .next t ∧ t.ck ≠ dataState.ck) ∧
    (∃ t, exec (.trkdata 0xFFFF [1]) dataState = .next t ∧ t.endAddr ≠ dataState.endAddr ∧ t.img.read 0xFFFF ≠ dataState.img.read 0xFFFF) ∧
    (∃ t, exec .trkwarn dataState = .next t ∧ t.warn ≠ dataState.warn) ∧
    (∃ t, exec (.encdat 0 []) dataState = .next t ∧ t.faultCode ≠ dataState.faultCode) :=
  ⟨by decide, ⟨_, rfl, by decide⟩, ⟨_, rfl, by decide, by decide⟩, ⟨_, rfl, by decide⟩, ⟨_, rfl, by decide⟩⟩

theorem witness_NoOtherCommandReadsCk : (∀ b, Instr.encdat 0 [1] ≠ .ckadd b) ∧ Instr.encdat 0 [1] ≠ .ckget ∧ Instr.encdat 0 [1] ≠ .cktst ∧
    Instr.encdat 0 [1] ≠ .rdstat ∧ ∃ t, exec (.encdat 0 [1]) dataState = .next t :=
  ⟨fun _ => by simp, by decide, by decide, by decide, _, rfl⟩

theorem witness_NoOtherCommandReadsWarn : Instr.trkinit ≠ .trkwarn ∧ Instr.trkinit ≠ .rdstat ∧ ∃ t, exec .trkinit dataState = .next t :=
  ⟨by decide, by decide, _, rfl⟩

/-- The edges of the three digit ranges, and their outer neighbours. -/
theorem witness_HexvalMapsEveryCharacter :
    ((List.map hexval [0x30, 0x39, 0x41, 0x46, 0x61, 0x66]).map BitVec.toNat = [0, 9, 10, 15, 10, 15]) ∧
    ((List.map hexval [0x2F, 0x3A, 0x40, 0x47, 0x60, 0x67, 0xC1]).map BitVec.toNat = [0, 0, 0, 0, 0, 0, 0]) := by decide

theorem witness_HexchrAnswersTheCharacterOrFaults : (0x09 : Byte).toNat ≤ 9 ∧ (10 ≤ (0x0A : Byte).toNat ∧ (0x0A : Byte).toNat ≤ 15) ∧
    (10 ≤ (0x0F : Byte).toNat ∧ (0x0F : Byte).toNat ≤ 15) ∧ 16 ≤ (0x10 : Byte).toNat := by decide

theorem witness_CodecFunctionsObeyTheirLaws : (0x61 ≤ (0x61 : Byte).toNat ∧ (0x61 : Byte).toNat ≤ 0x66) ∧ hexval 0x66 = hexval 0x46 ∧
    hexchr (hexval 0x66) = 0x46 ∧ hexchr (hexval 0x67) = 0x30 := by decide

theorem witness_CkgetAndCktstAnswerFromCk : dataState.ck.toNat = (([0x03, 0x01, 0x02, 0x03] : List Byte).map BitVec.toNat).sum % 256 := by
  decide

theorem witness_ChecksumArithmeticLaws : [0x01, 0x02].Perm ([0x02, 0x01] : List Byte) ∧ (0x10 : Byte) ≠ 0x20 :=
  ⟨List.Perm.swap _ _ _, by decide⟩

/-- The first and the last character position, and a header that counts its payload. -/
theorem witness_BuiltLinesAreRecords : 1 ≤ 1 ∧ 10 + 2 * ([0xAB] : List Byte).length = 12 ∧ (0x01 : Byte).toNat = ([0xAB] : List Byte).length := by
  decide

theorem witness_EncdatAnswersTheDataRecordLine : (0 < ([0xAB] : List Byte).length ∧ ([0xAB] : List Byte).length < 256) ∧
    (0 < (List.replicate 255 (0xAB : Byte)).length ∧ (List.replicate 255 (0xAB : Byte)).length < 256) := by
  rw [List.length_replicate]; decide

theorem witness_EncoderOutputDecodesBack : 0 < ([0xAB] : List Byte).length ∧ ([0xAB] : List Byte).length ≤ (0x01 : Byte).toNat := by decide

/-- What steps 1 to 6 of R76 ask of a line, and its three header fields. -/
def record (line : Line) (rectype n : Nat) (offset : Nat) : Bool :=
  decide (line.head? = some 0x3A) && decide (12 + 2 * n ≤ line.length) && decide (rdhex line 1 2 = n) && decide (rdhex line 3 4 = offset) &&
    decide (rdhex line 7 2 = rectype) && decide (line.getD (11 + 2 * n) 0 = 0x0A) &&
    decide (((List.range (n + 5)).map fun k => rdhex line (1 + 2 * k) 2).sum % 256 = 0)

/-- L2.4: a line for each clause of steps 1 to 6. -/
theorem witness_DecodeStepsDecideInOrder_checks : (ascii "abc").head? ≠ some 0x3A ∧ (ascii "").head? ≠ some 0x3A ∧
    (ascii ":0000000\n").length < 11 ∧
    (11 ≤ (ascii ":00000001FF").length ∧ (ascii ":00000001FF").length < 12 + 2 * rdhex (ascii ":00000001FF") 1 2) ∧
    (ascii ":03000000010203F7X").getD (11 + 2 * 3) 0 = 0x58 ∧ (ascii ":00000001FF\r").getD 11 0 = 0x0D ∧
    ((List.range 5).map fun k => rdhex (ascii ":00000001FE\n") (1 + 2 * k) 2).sum % 256 ≠ 0 := by decide

/-- L2.4: a line for each clause of step 7. -/
theorem witness_DecodeStepsDecideInOrder_rows : record (ascii ":03000000010203F7\n") 0x00 3 0 = true ∧ (0x02 : Byte).toNat < 3 ∧
    3 ≤ (0x03 : Byte).toNat ∧ record (ascii ":0100000100FE\n") 0x01 1 0 = true ∧ record (ascii ":00123401B9\n") 0x01 0 0x1234 = true ∧
    record (ascii ":020010021000DC\n") 0x02 2 0x10 = true ∧ record (ascii ":020000021000EC\n") 0x02 2 0 = true ∧
    record (ascii ":020000030000FB\n") 0x03 2 0 = true ∧ record (ascii ":0400000300001000E9\n") 0x03 4 0 = true ∧
    record (ascii ":020010041234A4\n") 0x04 2 0x10 = true ∧ record (ascii ":020000041234B4\n") 0x04 2 0 = true ∧
    record (ascii ":00000005FB\n") 0x05 0 0 = true ∧ record (ascii ":0400000500001000E7\n") 0x05 4 0 = true ∧
    record (ascii ":00000006FA\n") 0x06 0 0 = true := by decide

theorem witness_DecodeAnswersItsResult : (ascii ":00000001FF\n").length ≤ 65535 := by decide

theorem witness_RecordRowsAnswerTheirClassification : (0x01 : Byte).toNat < ([1, 2] : List Byte).length ∧
    ([1, 2] : List Byte).length ≤ (0x02 : Byte).toNat ∧ ([1] : List Byte) ≠ [] ∧ (([1, 2] : List Byte).length = 2 ∧ (0 : Addr) = 0) ∧
    (([1, 2] : List Byte).length ≠ 2 ∨ (0x0010 : Addr) ≠ 0) ∧ (([1, 2, 3, 4] : List Byte).length = 4 ∧ (0 : Addr) = 0) ∧
    (([1, 2] : List Byte).length ≠ 4 ∨ (0 : Addr) ≠ 0) := by decide

theorem witness_DecodeRunsTheRowOfItsRecord : ∃ i, decodeLine 255 (ascii ":00000001FF\n") = .ok i :=
  ⟨.recEof 0 [], by decide⟩

/-- Two lines that differ behind the terminator only. -/
theorem witness_DecodeReadsOnlyTheLineWindow : let line := ascii ":00000001FF\n"; let line' := ascii ":00000001FF\nXYZ"
    (∀ j, j < 12 + 2 * rdhex line 1 2 → line.getD j 0 = line'.getD j 0) ∧ (line.length = 0 ↔ line'.length = 0) ∧
    (line.length < 11 ↔ line'.length < 11) ∧
    (line.length < 12 + 2 * rdhex line 1 2 ↔ line'.length < 12 + 2 * rdhex line 1 2) := by decide

theorem witness_TerminatorsAndTrailingCharacters : 12 + 2 * rdhex (ascii ":00000001FF\n") 1 2 ≤ (ascii ":00000001FF\n").length ∧
    (0x58 : Byte) ≠ 0x0A ∧ (0x58 : Byte) ≠ 0x0D ∧ (ascii ":00000001FF\n").head? = some 0x3A ∧
    (ascii ":00000001FF").length = 11 + 2 * rdhex (ascii ":00000001FF") 1 2 ∧ (ascii ":00000001FF").head? = some 0x3A := by decide

/-- A 'G' for a '0' at the first position, an 'f' for an 'F' at the last. -/
theorem witness_FieldCharactersCountByTheirHexValue : let line := ascii ":00000001FF\n"
    1 ≤ 1 ∧ hexval 0x47 = hexval (line.getD 1 0) ∧ 10 ≤ 10 + 2 * rdhex line 1 2 ∧ hexval 0x66 = hexval (line.getD 10 0) := by decide

/-- The first position with a digit of another value, the last with one of the same. -/
theorem witness_OneChangedDigitIsRejected : let line := encline [BitVec.ofNat 8 ([1, 2, 3] : List Byte).length, 0, 0, 0] [1, 2, 3]
    line = ascii ":03000000010203F7\n" ∧ hexval 0x31 ≠ hexval (line.getD 1 0) ∧ 16 ≤ 10 + 2 * ([1, 2, 3] : List Byte).length ∧
    hexval 0x37 = hexval (line.getD 16 0) ∧ hexval 0x66 = hexval (line.getD 15 0) := by decide

/-- A record that ends at 0xFFFF and one that ends past it. -/
theorem witness_TrkdataCopiesAndWidens : dataState.imageCanonical ∧ (0xFFFF : Addr).toNat + ([1] : List Byte).length ≤ 65536 ∧
    65536 < (0xFFFF : Addr).toNat + ([1, 2] : List Byte).length := by decide

theorem witness_TrkwarnCountsAndPicksItsAction : (0 : BitVec 32).toNat < 10 ∧ (9 : BitVec 32).toNat < 10 ∧ (10 : BitVec 32).toNat = 10 ∧
    10 < (11 : BitVec 32).toNat ∧ 10 < (0xFFFFFFFF : BitVec 32).toNat := by decide

/-- A running state, for PseudoCommandsComputeTheChecksum, RepeatedWarningsAreCapped and StreamsWithoutDataGiveEmptyOutput. -/
theorem witness_running_state : dataState.endInImage ∧ dataState.running := by decide

/-- A slice, an empty slice with START = END, and an empty run. -/
theorem witness_TrksliceAnswersTheSlice :
    (dataState.endInImage ∧ dataState.startAddr.toNat ≤ dataState.endAddr.toNat ∧ 3 = dataState.endAddr.toNat - dataState.startAddr.toNat) ∧
    (let s : State := { State.reset with startAddr := 0x1000, endAddr := 0x1000 };
      s.startAddr.toNat ≤ s.endAddr.toNat ∧ 0 = s.endAddr.toNat - s.startAddr.toNat) ∧
    (State.reset.endInImage ∧ State.reset.endAddr.toNat < State.reset.startAddr.toNat) := by decide

theorem witness_RepeatedTrkdataChangesNothingMore : dataState.imageCanonical ∧ (0xFFFF : Addr).toNat + ([1] : List Byte).length ≤ 65536 := by
  decide

/-- Program P6's records, with a CKADD between them. -/
theorem witness_RunOfDataRecordsLeavesItsSlice :
    let cmds : List Instr := [.trkdata 0x0010 [1, 2, 3, 4], .ckadd 7, .trkdata 0x0012 [9], .trkdata 0x0020 []]
    dataState.endInImage ∧ dataState.running ∧
    (∀ i ∈ cmds, i.wf = true ∧ i.isRecord = false ∧ i ≠ .trkinit ∧ ownFault i = none) ∧ acceptedRecords cmds ≠ [] := by decide

theorem witness_ConverterCutsFullChunks : 1 ≤ 32 ∧ 1 < (fullChunks 4 [1, 2, 3, 4, 5, 6]).length ∧ ((0 : Nat) = 0 ∨ 255 < 0) ∧
    ((256 : Nat) = 0 ∨ 255 < 256) := by decide

theorem witness_ConverterWritesItsRecords : dataState.endInImage ∧ dataState.running ∧ 1 ≤ 4 ∧ 4 ≤ 255 ∧
    (∀ chunk ∈ ([[1, 2, 3, 4], [5]] : List (List Byte)), 1 ≤ chunk.length ∧ chunk.length ≤ 4) := by decide

theorem witness_ConvertThenReconstructGivesTheBytesBack : dataState.endInImage ∧ dataState.running ∧
    (0xFFFE : Addr).toNat + ([1, 2] : List Byte).length ≤ 65536 ∧ 1 ≤ 1 ∧ 1 ≤ 255 ∧ 1 ≤ (0x01 : Byte).toNat := by decide

/-- Runs that end well: with no warning, with 10 and with 11. -/
theorem witness_WarningsOfARunAreCapped : dataState.endInImage ∧ dataState.running ∧
    (∃ r, reconstruct 255 ([ascii ":00000001FF\n", ascii "x\n"].map .line) ⟨[], none⟩ dataState = .next r ∧ r.outcome = .ok) ∧
    (∃ r, reconstruct 255 ((List.replicate 10 (ascii "x\n")).map .line) ⟨[], none⟩ dataState = .next r ∧ r.outcome = .ok) ∧
    (∃ r, reconstruct 255 ((List.replicate 11 (ascii "x\n")).map .line) ⟨[], none⟩ dataState = .next r ∧ r.outcome = .ok) :=
  ⟨by decide, by decide, ⟨_, rfl, rfl⟩, ⟨_, rfl, rfl⟩, ⟨_, rfl, rfl⟩⟩

theorem witness_StreamsWithoutDataGiveEmptyOutput : ∀ l ∈ [ascii ":00000001FF\n", ascii "x\n", ascii ":020000041234B4\n"],
    l.length ≤ 65535 ∧ decodeRecordLine l 255 ≠ .bufferTooSmall ∧ ∀ o b, decodeRecordLine l 255 ≠ .data o b := by
  intro l hl
  have h : decodeRecordLine l 255 ∈ ([.endOfFile 0, .notARecord, .extendedLinearAddress 0x1234] : List DecodeResult) ∧ l.length ≤ 65535 := by
    revert l; decide
  refine ⟨h.2, fun hb => absurd (hb ▸ h.1) (by decide), fun o b hd => ?_⟩
  have := hd ▸ h.1
  simp at this

/-- A read that fails (also before a sink that would fail), a buffer too small, and an overrun. -/
theorem witness_FatalReconstructionsWriteNothing :
    (∃ r, reconstruct 255 [.ioFail] ⟨[], some 1⟩ dataState = .next r ∧ r.outcome = .fatalIo) ∧
    (∃ r, reconstruct 255 ([ascii ":01FFFF00AB56\n"].map .line ++ .ioFail :: []) ⟨[], some 0⟩ dataState = .next r ∧ r.outcome = .fatalIo) ∧
    (∀ a, decodeRecordLine (ascii ":01FFFF00AB56\n") 255 ≠ .endOfFile a) ∧
    (∃ r, reconstruct 2 [.line (ascii ":03000000010203F7\n")] ⟨[], none⟩ dataState = .next r ∧ r.outcome = .fatalCapacity) := by
  refine ⟨⟨_, rfl, rfl⟩, ⟨_, rfl, rfl⟩, fun a h => ?_, _, rfl, rfl⟩
  have hd : decodeRecordLine (ascii ":01FFFF00AB56\n") 255 = .data 0xFFFF [0xAB] := by decide
  rw [hd] at h
  cases h

/-- A converter run, and reconstructor runs that do and do not overrun the image. -/
theorem witness_BlockFaultsOfARunAreOverruns : dataState.endInImage ∧ dataState.running ∧
    (∃ r, convert 0 4 [.bytes [1]] ⟨[], none⟩ dataState = .next r) ∧
    (∃ r, reconstruct 255 [.line (ascii ":02FFFF00AABB9B\n")] ⟨[], none⟩ dataState = .next r ∧ r.outcome = .fatalBlock) ∧
    (∃ r, reconstruct 255 [.line (ascii ":01FFFF00AB56\n")] ⟨[], none⟩ dataState = .next r ∧ r.outcome = .ok) :=
  ⟨by decide, by decide, ⟨_, rfl⟩, ⟨_, rfl, rfl⟩, _, rfl, rfl⟩

/-- The first length that cannot be sent. -/
theorem witness_LinesThatCannotBeSentAreRefused : dataState.endInImage ∧ dataState.running ∧
    65535 < (List.replicate 65536 (0x3A : Byte)).length := by
  rw [List.length_replicate]; decide

/-- Zero-length records at one offset, the case of R23, and at two. -/
theorem witness_ZeroLengthRecordsWriteNoByte :
    ∀ cmds ∈ ([[.trkdata 0x1000 [], .ckclr, .trkdata 0x1000 []], [.trkdata 0x0020 [], .trkdata 0x0010 []]] : List (List Instr)),
      (∀ i ∈ cmds, i.wf = true ∧ i.isRecord = false ∧ i ≠ .trkinit ∧ ownFault i = none) ∧ acceptedRecords cmds ≠ [] ∧
      ∀ r ∈ acceptedRecords cmds, r.2 = [] := by decide

end Sys2Proof.Tests
end

/-! What every command and every step keeps (10_state.md R18, R20, R22; 20_memory.md R26, R35). -/

namespace Sys2Proof.Machine

/-- `START` after a data record is the smaller of the two (R17). -/
@[simp] theorem toNat_lowerStart (startAddr offset : Addr) :
    (lowerStart startAddr offset).toNat = min startAddr.toNat offset.toNat := by
  have := startAddr.isLt
  simp only [lowerStart, BitVec.toNat_ofNat]
  omega

/-- `END` after a data record inside the image is the greater of the two (R18). -/
theorem toNat_raiseEnd {endAddr : BitVec 17} {offset : Addr} {n : Nat} (hfit : offset.toNat + n ≤ 65536) :
    (raiseEnd endAddr offset n).toNat = max endAddr.toNat (offset.toNat + n) := by
  have := endAddr.isLt
  simp only [raiseEnd, BitVec.toNat_ofNat]
  omega

/-- Only HEXCHR, ENCDAT and TRKDATA have a fault of their own (R112). -/
theorem ownFault_eq_some {i : Instr} {c : FaultCause} (h : ownFault i = some c) :
    (∃ b, i = .hexchr b) ∨ (∃ o b, i = .encdat o b) ∨ ∃ o b, i = .trkdata o b := by
  cases i with
  | hexchr b => exact .inl ⟨b, rfl⟩
  | encdat o b => exact .inr (.inl ⟨o, b, rfl⟩)
  | trkdata o b => exact .inr (.inr ⟨o, b, rfl⟩)
  | _ => cases h

/-- The invariant reads `IMG`, `START`, `END` and `FAULT` only. -/
theorem State.Inv.of_same_elements {s t : State} (h : s.Inv) (himg : t.img = s.img) (hstart : t.startAddr = s.startAddr)
    (hend : t.endAddr = s.endAddr) (hfault : t.faultLegal) : t.Inv where
  imageCanonical := by simpa only [State.imageCanonical, himg] using h.imageCanonical
  endInImage := by simpa only [State.endInImage, hend] using h.endInImage
  faultLegal := hfault
  watermarksOrdered := by simpa only [State.watermarksOrdered, hstart, hend] using h.watermarksOrdered
  sliceCoversImage := by simpa only [State.sliceCoversImage, himg, hstart, hend] using h.sliceCoversImage

/-- The state of a run with no data record meets the invariant: after reset (R120) and after TRKINIT (R91). -/
theorem inv_of_empty_run {t : State} (himg : t.img = []) (hstart : t.startAddr = 0xFFFF) (hend : t.endAddr = 0)
    (hfault : t.faultLegal) : t.Inv where
  imageCanonical := by rw [State.imageCanonical, himg]; rfl
  endInImage := by simp [State.endInImage, hend]
  faultLegal := hfault
  watermarksOrdered := .inl ⟨hstart, hend⟩
  sliceCoversImage a ha := absurd (by rw [himg, Memory.read_nil]) ha

/-- What an accepted data record leaves (R92). -/
def State.storeRecord (s : State) (offset : Addr) (bytes : List Byte) : State :=
  { s with
    img := s.img.writeBytes offset.toNat bytes
    startAddr := lowerStart s.startAddr offset
    endAddr := raiseEnd s.endAddr offset bytes.length }

/-- An accepted data record widens the slice to cover the bytes it writes (R22, R92). -/
theorem State.Inv.storeRecord {s : State} (h : s.Inv) {offset : Addr} {bytes : List Byte}
    (hfit : offset.toNat + bytes.length ≤ 65536) : (s.storeRecord offset bytes).Inv where
  imageCanonical := Memory.wf_writeBytes bytes s.img h.imageCanonical offset.toNat hfit
  endInImage := by
    have := h.endInImage
    simp only [State.endInImage, State.storeRecord, toNat_raiseEnd hfit] at *
    omega
  faultLegal := h.faultLegal
  watermarksOrdered := by
    refine .inr ?_
    simp only [State.storeRecord, toNat_lowerStart, toNat_raiseEnd hfit]
    omega
  sliceCoversImage a ha := by
    simp only [State.storeRecord, toNat_lowerStart, toNat_raiseEnd hfit,
      Memory.read_writeBytes bytes s.img h.imageCanonical offset.toNat hfit] at ha ⊢
    split at ha
    · omega
    · have := h.sliceCoversImage a ha
      omega

/-- Every command's own rule keeps the invariant. -/
theorem exec_keeps_inv {i : Instr} {s t : State} (h : s.Inv) (he : exec i s = .next t) : t.Inv := by
  obtain ⟨-, -, -, -, -, -, r, rfl⟩ | ⟨c, -, rfl⟩ | ⟨-, rfl⟩ | ⟨b, -, rfl⟩ | ⟨-, rfl⟩ | ⟨o, b, -, hfit, rfl⟩ | ⟨-, rfl⟩ :=
    exec_cases he
  · exact h.of_same_elements rfl rfl rfl h.faultLegal
  · exact h.of_same_elements rfl rfl rfl (faultCodeLegal_faultByte c)
  · exact h.of_same_elements rfl rfl rfl h.faultLegal
  · exact h.of_same_elements rfl rfl rfl h.faultLegal
  · exact inv_of_empty_run rfl rfl rfl h.faultLegal
  · exact (h.storeRecord hfit).of_same_elements rfl rfl rfl h.faultLegal
  · exact h.of_same_elements rfl rfl rfl h.faultLegal

/-- Settles O3: the reset state is the state of an empty run. -/
theorem resetStateMeetsTheInvariant : Obligations.ResetStateMeetsTheInvariant :=
  inv_of_empty_run rfl rfl rfl rfl

/-- Settles O4: a step idles, resets, answers `[FAULT]`, takes the prologue's fault or runs a command, and each keeps the invariant. -/
theorem everyStepKeepsTheInvariant : Obligations.EveryStepKeepsTheInvariant := by
  intro s t h hstep
  obtain ⟨-, -, ⟨-, rfl⟩ | ⟨rest, -, rfl⟩ | ⟨p, rest, -, -, rfl⟩ | ⟨p, rest, c, -, -, -, rfl⟩ | ⟨p, rest, i, -, -, -, he⟩⟩ :=
    step_cases hstep
  · exact h
  · exact inv_of_empty_run rfl rfl rfl rfl
  · exact h.of_same_elements rfl rfl rfl h.faultLegal
  · exact h.of_same_elements rfl rfl rfl (faultCodeLegal_faultByte c)
  · exact exec_keeps_inv (s := { s with port := rest }) (h.of_same_elements rfl rfl rfl h.faultLegal) he

/-! The states without a step (93_implementation_defined.md U16). -/

/-- A state that has a reason to be stuck has no step, whatever the host does (U16). -/
theorem step_of_stuckReason {s : State} {f : Fault} (h : stuckReason s = some f) : step s = .fault f := by
  simp only [step, fetch, h]

/-- A `FAULT` outside the values of R20 is not legal. -/
theorem faultCodeLegal_eq_false {f : Byte} (h : f ∉ ([0x00, 0xE1, 0xE2, 0xE3, 0xE4, 0xE5] : List Byte)) :
    faultCodeLegal f = false := by
  simpa [faultCodeLegal, and_assoc] using h

/-- Settles O16: `END` beyond the image is the first reason to be stuck, an illegal `FAULT` the second (U16). -/
theorem unreachableStatesHaveNoStep : Obligations.UnreachableStatesHaveNoStep := by
  refine ⟨fun s hend => ⟨step_of_stuckReason ?_, ?_⟩, fun s hend hfault => step_of_stuckReason ?_⟩
  · exact if_pos hend
  · exact if_pos hend
  · rw [stuckReason, if_neg (Nat.not_lt.mpr hend), if_pos (faultCodeLegal_eq_false hfault)]

/-! Which elements a command writes, and which commands read `CK` (10_state.md R16 to R21). -/

/-- A copy changes only the bytes it covers (R32). -/
theorem covers_of_read_writeBytes_ne {m : Memory} (h : m.wf = true) {offset : Addr} {bytes : List Byte}
    (hfit : offset.toNat + bytes.length ≤ 65536) {a : Nat} (hne : (m.writeBytes offset.toNat bytes).read a ≠ m.read a) :
    offset.toNat ≤ a ∧ a < offset.toNat + bytes.length := by
  rw [Memory.read_writeBytes bytes m h offset.toNat hfit] at hne
  by_contra hout
  exact hne (if_neg hout)

/-- Settles O17: of the ways a command's own rule can end (`exec_cases`), each writes the elements listed for its command alone. -/
theorem onlyListedCommandsWriteEachElement : Obligations.OnlyListedCommandsWriteEachElement := by
  intro i s t hcan he
  obtain ⟨-, -, -, -, -, -, r, rfl⟩ | ⟨c, hc, rfl⟩ | ⟨rfl, rfl⟩ | ⟨b, rfl, rfl⟩ | ⟨rfl, rfl⟩ | ⟨o, b, rfl, hfit, rfl⟩ |
    ⟨rfl, rfl⟩ := exec_cases he
  · simp
  · simpa using fun _ => ownFault_eq_some hc
  · simp
  · simp
  · simp
  · simpa using fun a => covers_of_read_writeBytes_ne hcan hfit
  · simp

/-- What follows a choice follows each of its branches. -/
theorem andThen_ite {α β : Type} (p : Prop) [Decidable p] (x y : Host.Outcome α Fault Refusal)
    (f : α → Host.Outcome β Fault Refusal) :
    andThen (if p then x else y) f = if p then andThen x f else andThen y f :=
  apply_ite (andThen · f) p x y

/-- A command that neither reads nor clears `CK` answers and writes the other elements alike for every value of it, and passes it
through (R16). -/
theorem exec_with_ck {i : Instr} (s : State) (c : BitVec 8) (hadd : ∀ b, i ≠ .ckadd b) (hget : i ≠ .ckget) (htst : i ≠ .cktst)
    (hstat : i ≠ .rdstat) (hclr : i ≠ .ckclr) :
    exec i { s with ck := c } = andThen (exec i s) fun t => .next { t with ck := c } := by
  cases i with
  | ckadd b => exact absurd rfl (hadd b)
  | ckget => exact absurd rfl hget
  | cktst => exact absurd rfl htst
  | rdstat => exact absurd rfl hstat
  | ckclr => exact absurd rfl hclr
  | hexchr b => simp only [exec, execHexchr, andThen_ite]; rfl
  | encdat o b => simp only [exec, execEncdat, andThen_ite]; rfl
  | trkdata o b => simp only [exec, execTrkdata, andThen_ite]; rfl
  | trkslice => simp only [exec, execTrkslice, andThen_ite]; rfl
  | decode cap line => simp only [exec, execDecode_eq]; rfl
  | _ => rfl

/-- Settles O18: CKCLR overwrites `CK`, and every other command that is not excepted passes it through. -/
theorem noOtherCommandReadsCk : Obligations.NoOtherCommandReadsCk := by
  intro i s t c hadd hget htst hstat h
  by_cases hclr : i = .ckclr
  · subst hclr
    cases h
    exact ⟨_, rfl, rfl, rfl, rfl, rfl, rfl, rfl, rfl, .inl rfl⟩
  · have hc := exec_with_ck s c hadd hget htst hstat hclr
    rw [h] at hc
    exact ⟨_, hc, rfl, rfl, rfl, rfl, rfl, rfl, rfl, .inr rfl⟩

end Sys2Proof.Machine

/-! A command's packet decodes to the command (30_encoding.md R44, R45), so the host's `cmd` runs the command's own rule. -/

namespace Sys2Proof.Machine

/-- A WD packet whose bytes fit the count decodes to its command (R44). -/
theorem decodePacket_packetWD {op : Byte} {mk : Addr → List Byte → Instr}
    (hop : opcodeMap op = some (.WD, fun p => mk (operandW p) (bytesWD p))) (offset : Addr) {bytes : List Byte}
    (hlen : bytes.length ≤ 255) : decodePacket (packetWD op offset bytes) = .ok (mk offset bytes) := by
  have hneed : neededLength .WD (packetWD op offset bytes) = some (packetWD op offset bytes).length := by
    rw [neededLength_WD _ (by rw [length_packetWD]; omega), countWD_packetWD op offset bytes hlen, length_packetWD]
  rw [decodePacket_of_length rfl hop hneed, operandW_packetWD, bytesWD_packetWD op offset bytes hlen]

/-- A W packet decodes to its command (R44). -/
theorem decodePacket_packetW {op : Byte} {mk : Addr → Instr} (hop : opcodeMap op = some (.W, fun p => mk (operandW p)))
    (w : Addr) : decodePacket (packetW op w) = .ok (mk w) := by
  rw [decodePacket_of_length rfl hop rfl, operandW_packetW]

/-- An L packet whose line fits the length field decodes to its command (R44). -/
theorem decodePacket_packetL {op : Byte} {mk : Byte → Line → Instr}
    (hop : opcodeMap op = some (.L, fun p => mk (operandB p) (lineL p))) (cap : Byte) {line : Line}
    (hlen : line.length ≤ 65535) : decodePacket (packetL op cap line) = .ok (mk cap line) := by
  have hneed : neededLength .L (packetL op cap line) = some (packetL op cap line).length := by
    rw [neededLength_L _ (by rw [length_packetL]; omega), countL_packetL op cap line hlen, length_packetL]
  rw [decodePacket_of_length rfl hop hneed, lineL_packetL op cap line hlen]
  rfl

/-- A well-formed command's packet decodes to the command (R44, R45). -/
theorem decodePacket_encode {i : Instr} (hwf : i.wf = true) (hrec : i.isRecord = false) : decodePacket (encode i) = .ok i := by
  cases i with
  | encdat offset bytes => exact decodePacket_packetWD rfl offset (of_decide_eq_true hwf)
  | trkdata offset bytes => exact decodePacket_packetWD rfl offset (of_decide_eq_true hwf)
  | encela w => exact decodePacket_packetW rfl w
  | enceof w => exact decodePacket_packetW rfl w
  | imgrd w => exact decodePacket_packetW rfl w
  | decode cap line => exact decodePacket_packetL rfl cap (of_decide_eq_true hwf)
  | recData _ _ _ | recEof _ _ | recEsa _ _ | recSsa _ _ | recEla _ _ | recSla _ _ | recInvalid _ _ _ => cases hrec
  | _ => rfl

/-- A command without a fault answers with the status of a completed command and leaves `FAULT` as it was (R46). -/
theorem exec_completed {i : Instr} {s t : State} (hfault : ownFault i = none) (h : exec i s = .next t) :
    completed t.lastResponse = true ∧ t.faultCode = s.faultCode := by
  obtain ⟨-, -, -, -, -, -, r, rfl⟩ | ⟨c, hc, -⟩ | ⟨-, rfl⟩ | ⟨b, -, rfl⟩ | ⟨-, rfl⟩ | ⟨o, b, -, -, rfl⟩ | ⟨-, rfl⟩ := exec_cases h
  case inr.inl => rw [hfault] at hc; cases hc
  all_goals exact ⟨by rw [State.lastResponse_respond]; rfl, rfl⟩

/-- Sent to a running block, a well-formed command without a fault completes, and the block still runs (R46, R111). -/
theorem cmd_completes {i : Instr} {s : State} (hend : s.endInImage) (hrun : s.running) (hwf : i.wf = true)
    (hrec : i.isRecord = false) (hfault : ownFault i = none) :
    ∃ t, exec i s = .next t ∧ cmd i s = .next (t.lastResponse, t) ∧ completed t.lastResponse = true ∧ t.running := by
  obtain ⟨t, ht⟩ := exec_completes i s hend
  obtain ⟨hdone, hcode⟩ := exec_completed hfault ht
  exact ⟨t, ht, cmd_eq_next hend hrun (decodePacket_encode hwf hrec) ht, hdone, hcode.trans hrun⟩

end Sys2Proof.Machine

/-! What the data records of a run leave in the tracker (44_range_tracker.md R92, R97), and the run of R97 as a whole. -/

namespace Sys2Proof.Machine

/-- What the data records accepted since TRKINIT leave (R97): the least offset, the greatest end, and at each address the byte of the
last record that covers it. -/
structure State.Tracks (s : State) (records : List (Addr × List Byte)) : Prop where
  start_le : ∀ r ∈ records, s.startAddr.toNat ≤ r.1.toNat
  le_end : ∀ r ∈ records, r.1.toNat + r.2.length ≤ s.endAddr.toNat
  start_attained : (records = [] ∧ s.startAddr = Config.startReset) ∨ ∃ r ∈ records, r.1.toNat = s.startAddr.toNat
  end_attained : (records = [] ∧ s.endAddr = 0) ∨ ∃ r ∈ records, r.1.toNat + r.2.length = s.endAddr.toNat
  image : ∀ a, s.img.read a = lastCovering records a

/-- `State.Tracks` reads `IMG`, `START` and `END` only. -/
theorem State.Tracks.of_same_elements {s t : State} {records : List (Addr × List Byte)} (h : s.Tracks records)
    (himg : t.img = s.img) (hstart : t.startAddr = s.startAddr) (hend : t.endAddr = s.endAddr) : t.Tracks records where
  start_le := by simpa only [hstart] using h.start_le
  le_end := by simpa only [hend] using h.le_end
  start_attained := by simpa only [hstart] using h.start_attained
  end_attained := by simpa only [hend] using h.end_attained
  image := by simpa only [himg] using h.image

/-- The state of an empty run tracks no record (R91). -/
theorem tracks_nil {t : State} (himg : t.img = []) (hstart : t.startAddr = Config.startReset) (hend : t.endAddr = 0) :
    t.Tracks [] where
  start_le := nofun
  le_end := nofun
  start_attained := .inl ⟨rfl, hstart⟩
  end_attained := .inl ⟨rfl, hend⟩
  image a := by rw [himg]; rfl

/-- One more record is the last one wherever it covers (R97). -/
theorem lastCovering_concat (records : List (Addr × List Byte)) (r : Addr × List Byte) (a : Nat) :
    lastCovering (records ++ [r]) a =
      if r.1.toNat ≤ a ∧ a < r.1.toNat + r.2.length then r.2.getD (a - r.1.toNat) 0 else lastCovering records a := by
  simp [lastCovering, recordCovers]

/-- An accepted record is one more record tracked (R92). -/
theorem State.Tracks.storeRecord {s : State} {records : List (Addr × List Byte)} (h : s.Tracks records) (hcan : s.imageCanonical)
    {offset : Addr} {bytes : List Byte} (hfit : offset.toNat + bytes.length ≤ 65536) :
    (s.storeRecord offset bytes).Tracks (records ++ [(offset, bytes)]) where
  start_le := by
    simp only [State.storeRecord, toNat_lowerStart, List.forall_mem_append, List.forall_mem_singleton]
    exact ⟨fun r hr => (Nat.min_le_left ..).trans (h.start_le r hr), Nat.min_le_right ..⟩
  le_end := by
    simp only [State.storeRecord, toNat_raiseEnd hfit, List.forall_mem_append, List.forall_mem_singleton]
    exact ⟨fun r hr => (h.le_end r hr).trans (Nat.le_max_left ..), Nat.le_max_right ..⟩
  start_attained := by
    refine .inr ?_
    simp only [State.storeRecord, toNat_lowerStart]
    obtain hle | hlt := le_or_gt offset.toNat s.startAddr.toNat
    · exact ⟨(offset, bytes), by simp, (Nat.min_eq_right hle).symm⟩
    · obtain ⟨-, hreset⟩ | ⟨r, hr, heq⟩ := h.start_attained
      · rw [hreset] at hlt
        exact absurd hlt (Nat.not_lt.mpr (Nat.le_of_lt_succ offset.isLt))
      · exact ⟨r, List.mem_append_left _ hr, heq.trans (Nat.min_eq_left hlt.le).symm⟩
  end_attained := by
    refine .inr ?_
    simp only [State.storeRecord, toNat_raiseEnd hfit]
    obtain hle | hlt := le_or_gt s.endAddr.toNat (offset.toNat + bytes.length)
    · exact ⟨(offset, bytes), by simp, (Nat.max_eq_right hle).symm⟩
    · obtain ⟨-, hreset⟩ | ⟨r, hr, heq⟩ := h.end_attained
      · simp [hreset] at hlt
      · exact ⟨r, List.mem_append_left _ hr, heq.trans (Nat.max_eq_left hlt.le).symm⟩
  image a := by
    rw [lastCovering_concat, ← h.image a]
    exact Memory.read_writeBytes bytes s.img hcan offset.toNat hfit a

/-- The record a command accepts comes before those of the commands after it. -/
theorem acceptedRecords_cons (i : Instr) (cmds : List Instr) :
    acceptedRecords (i :: cmds) = (acceptedRecord i).toList ++ acceptedRecords cmds := by
  cases h : acceptedRecord i <;> simp [acceptedRecords, h]

/-- Within a run, a command without a fault adds the record it accepts, if it accepts one, to those tracked. -/
theorem exec_tracks {i : Instr} {s t : State} {records : List (Addr × List Byte)} (h : s.Tracks records) (hcan : s.imageCanonical)
    (hinit : i ≠ .trkinit) (hfault : ownFault i = none) (he : exec i s = .next t) :
    t.Tracks (records ++ (acceptedRecord i).toList) := by
  have keep (hrec : acceptedRecord i = none) (himg : t.img = s.img) (hstart : t.startAddr = s.startAddr)
      (hend : t.endAddr = s.endAddr) : t.Tracks (records ++ (acceptedRecord i).toList) := by
    rw [hrec, Option.toList_none, List.append_nil]
    exact h.of_same_elements himg hstart hend
  obtain ⟨-, hrec, -, -, -, -, r, rfl⟩ | ⟨c, hc, -⟩ | ⟨rfl, rfl⟩ | ⟨b, rfl, rfl⟩ | ⟨hi, -⟩ | ⟨o, b, rfl, hfit, rfl⟩ | ⟨rfl, rfl⟩ :=
    exec_cases he
  · exact keep hrec rfl rfl rfl
  · rw [hfault] at hc; cases hc
  · exact keep rfl rfl rfl rfl
  · exact keep rfl rfl rfl rfl
  · exact absurd hi hinit
  · exact (h.storeRecord hcan hfit).of_same_elements rfl rfl rfl
  · exact keep rfl rfl rfl rfl

/-- Commands of a run that do not fault all complete, and what follows them starts where they end (R52, R97). -/
theorem cmdAll_append_of_no_fault (cmds : List Instr) (last : Packet) {s : State} {records : List (Addr × List Byte)} (hinv : s.Inv)
    (hrun : s.running) (htracks : s.Tracks records)
    (hcmds : ∀ i ∈ cmds, i.wf = true ∧ i.isRecord = false ∧ i ≠ .trkinit ∧ ownFault i = none) :
    ∃ (r : Packet) (t : State), t.Inv ∧ t.running ∧ t.Tracks (records ++ acceptedRecords cmds) ∧
      ∀ rest, cmdAll last (cmds ++ rest) s = cmdAll r rest t := by
  induction cmds generalizing last s records with
  | nil => exact ⟨last, s, hinv, hrun, by simpa [acceptedRecords] using htracks, fun _ => rfl⟩
  | cons i cmds ih =>
    obtain ⟨⟨hwf, hrec, hinit, hfault⟩, hcmds⟩ := List.forall_mem_cons.mp hcmds
    obtain ⟨u, hu, hcmd, hdone, hurun⟩ := cmd_completes hinv.endInImage hrun hwf hrec hfault
    obtain ⟨r, t, htinv, htrun, httracks, hrest⟩ :=
      ih u.lastResponse (exec_keeps_inv hinv hu) hurun (exec_tracks htracks hinv.imageCanonical hinit hfault hu) hcmds
    refine ⟨r, t, htinv, htrun, ?_, fun rest => ?_⟩
    · rwa [acceptedRecords_cons, ← List.append_assoc]
    · rw [List.cons_append, cmdAll_cons_of_completed hcmd hdone, hrest]

/-- What TRKSLICE answers (R94). -/
def sliceResponse (s : State) : Packet :=
  [statusOk] ++ be16 s.startAddr.toNat ++ be24 (sliceLength s) ++ s.img.readBytes s.startAddr.toNat (sliceLength s)

/-- With `END` inside the image, TRKSLICE answers its slice and writes nothing (R94). -/
theorem exec_trkslice {s : State} (h : s.endInImage) : exec .trkslice s = .next (s.respond (sliceResponse s)) :=
  if_neg (Nat.not_lt.mpr h)

/-- TRKINIT, commands without a fault, TRKSLICE (R97): the answer is the slice of a state that tracks the accepted records. -/
theorem cmdAll_run {cmds : List Instr} {s : State} (hend : s.endInImage) (hrun : s.running)
    (hcmds : ∀ i ∈ cmds, i.wf = true ∧ i.isRecord = false ∧ i ≠ .trkinit ∧ ownFault i = none) :
    ∃ t : State, t.Inv ∧ t.Tracks (acceptedRecords cmds) ∧
      cmdAll [] ([.trkinit] ++ cmds ++ [.trkslice]) s = .next (sliceResponse t, t.respond (sliceResponse t)) := by
  obtain ⟨u, hu, hinit, hdone, hurun⟩ := cmd_completes (i := .trkinit) hend hrun rfl rfl rfl
  obtain ⟨himg, hstart, huend⟩ : u.img = [] ∧ u.startAddr = Config.startReset ∧ u.endAddr = 0 := by
    cases hu
    exact ⟨rfl, rfl, rfl⟩
  obtain ⟨r, t, htinv, htrun, httracks, hrest⟩ := cmdAll_append_of_no_fault cmds u.lastResponse
    (inv_of_empty_run himg hstart huend (faultLegal_of_running hurun)) hurun (tracks_nil himg hstart huend) hcmds
  have hslice := cmd_eq_next htinv.endInImage htrun rfl (exec_trkslice htinv.endInImage)
  rw [State.lastResponse_respond] at hslice
  refine ⟨t, htinv, httracks, ?_⟩
  rw [List.append_assoc, List.singleton_append, cmdAll_cons_of_completed hinit hdone, hrest]
  exact cmdAll_cons_of_completed hslice rfl

/-- Zero-length records cover no address (R92). -/
theorem lastCovering_of_zero_length {records : List (Addr × List Byte)} (h : ∀ r ∈ records, r.2 = []) (a : Nat) :
    lastCovering records a = 0 := by
  induction records using List.reverseRecOn with
  | nil => rfl
  | append_singleton records r ih =>
    obtain ⟨hrecords, hr⟩ := List.forall_mem_append.mp h
    rw [lastCovering_concat, if_neg (by simp [hr r (List.mem_singleton_self r)]), ih hrecords]

/-- The slice of an image of zeros is zeros (R94, R35). -/
theorem readBytes_of_zero {m : Memory} (h : ∀ a, m.read a = 0) (a n : Nat) : m.readBytes a n = List.replicate n 0 := by
  simp [Memory.readBytes, h]

/-- Settles O59: the records of such a run cover nothing, and their ends are their offsets. -/
theorem zeroLengthRecordsWriteNoByte : Obligations.ZeroLengthRecordsWriteNoByte := by
  intro cmds s hend hrun hcmds hsome hzero
  obtain ⟨t, -, htracks, hall⟩ := cmdAll_run hend hrun hcmds
  have himg : ∀ a, t.img.read a = 0 := fun a => (htracks.image a).trans (lastCovering_of_zero_length hzero a)
  obtain ⟨rs, hrs, hstart⟩ := htracks.start_attained.resolve_left fun h => hsome h.1
  obtain ⟨re, hre, htop⟩ := htracks.end_attained.resolve_left fun h => hsome h.1
  have hle : ∀ r ∈ acceptedRecords cmds, r.1.toNat ≤ t.endAddr.toNat := fun r hr => by
    simpa [hzero r hr] using htracks.le_end r hr
  rw [hzero re hre, List.length_nil, Nat.add_zero] at htop
  have hordered : t.startAddr.toNat ≤ t.endAddr.toNat := hstart ▸ hle rs hrs
  have hhigh : (t.endAddr.toNat - t.startAddr.toNat) / 65536 = 0 := by have := re.1.isLt; omega
  refine ⟨t.respond (sliceResponse t), ?_, ⟨rs, hrs, hstart⟩, ⟨re, hre, htop⟩, fun r hr => ⟨htracks.start_le r hr, hle r hr⟩, himg⟩
  rw [hall, sliceResponse, sliceLength, if_pos hordered, readBytes_of_zero himg, be24, hhigh]
  rfl

end Sys2Proof.Machine

/-! Storing the same data record again (20_memory.md R34). -/

namespace Sys2Proof.Machine

/-- The same copy a second time leaves the image of the first (R34). -/
theorem Memory.writeBytes_writeBytes_same {m : Memory} (h : m.wf = true) {a : Nat} {bytes : List Byte}
    (hfit : a + bytes.length ≤ Config.imgSize) : (m.writeBytes a bytes).writeBytes a bytes = m.writeBytes a bytes := by
  have hwf := Memory.wf_writeBytes bytes m h a hfit
  refine Memory.ext_wf _ _ (Memory.wf_writeBytes bytes _ hwf a hfit) hwf fun x => ?_
  rw [Memory.read_writeBytes bytes _ hwf a hfit, Memory.read_writeBytes bytes m h a hfit]
  split <;> rfl

/-- The same offset lowers `START` only once (R17). -/
theorem lowerStart_lowerStart_same (startAddr offset : Addr) :
    lowerStart (lowerStart startAddr offset) offset = lowerStart startAddr offset :=
  BitVec.eq_of_toNat_eq (by simp)

/-- The same record raises `END` only once (R18). -/
theorem raiseEnd_raiseEnd_same {endAddr : BitVec 17} {offset : Addr} {n : Nat} (hfit : offset.toNat + n ≤ 65536) :
    raiseEnd (raiseEnd endAddr offset n) offset n = raiseEnd endAddr offset n :=
  BitVec.eq_of_toNat_eq (by simp [toNat_raiseEnd hfit])

/-- A TRKDATA that ends inside the image stores its record and answers that it completed (R92). -/
theorem exec_trkdata (s : State) {offset : Addr} {bytes : List Byte} (hfit : offset.toNat + bytes.length ≤ 65536) :
    exec (.trkdata offset bytes) s = .next ((s.storeRecord offset bytes).respond [statusOk]) :=
  if_neg (Nat.not_lt.mpr hfit)

/-- Settles O49: the copy and the two watermark updates are each idempotent. -/
theorem repeatedTrkdataChangesNothingMore : Obligations.RepeatedTrkdataChangesNothingMore := by
  intro offset bytes s hcan hfit
  refine ⟨_, _, exec_trkdata s hfit, exec_trkdata _ hfit, ?_, ?_, ?_⟩
  · exact Memory.writeBytes_writeBytes_same hcan hfit
  · exact lowerStart_lowerStart_same s.startAddr offset
  · exact raiseEnd_raiseEnd_same hfit

end Sys2Proof.Machine

/-! The packet map read from the packet side (30_encoding.md R44, R45). -/

namespace Sys2Proof.Machine

/-- Settles O5: the round trip holds for each format (`decodePacket_encode`). -/
theorem commandPacketsDecodeToTheirCommands : Obligations.CommandPacketsDecodeToTheirCommands :=
  fun _ hwf hrec => decodePacket_encode hwf hrec

/-- A list is its elements in order of position. -/
theorem map_getD_range (bs : List Byte) : (List.range bs.length).map (bs.getD · 0) = bs :=
  List.ext_getElem (by simp) fun i _ hi => by simp [hi]

/-- A packet of known length is its bytes in order of position. -/
theorem eq_map_byteAt {p : Packet} {n : Nat} (h : n = p.length) : (List.range n).map (byteAt p) = p := by
  subst h
  exact map_getD_range p

/-- Two big-endian bytes are those of the number they spell (R10). -/
@[simp] theorem be16_of_bytes (hi lo : Byte) : be16 (hi.toNat * 256 + lo.toNat) = [hi, lo] := by
  have hhi : BitVec.ofNat 8 ((hi.toNat * 256 + lo.toNat) / 256) = hi := BitVec.eq_of_toNat_eq (by simp; omega)
  have hlo : BitVec.ofNat 8 (hi.toNat * 256 + lo.toNat) = lo := BitVec.eq_of_toNat_eq (by simpa using lo.isLt)
  rw [be16, hhi, hlo]

/-- A WD packet's byte list fits the count field, whatever the packet (R44). -/
theorem length_bytesWD_le (p : Packet) : (bytesWD p).length ≤ 255 :=
  (List.length_take_le ..).trans (Nat.le_of_lt_succ (byteAt p 3).isLt)

/-- An L packet's line fits the length field, whatever the packet (R44). -/
theorem length_lineL_le (p : Packet) : (lineL p).length ≤ 65535 := by
  have hle : (lineL p).length ≤ countL p := List.length_take_le ..
  simp only [countL] at hle
  omega

/-- The packet that a format's fields of `p` spell behind an opcode (R44). -/
def packetOfFields (f : Format) (op : Byte) (p : Packet) : Packet :=
  match f with
  | .N => [op]
  | .B => [op, operandB p]
  | .W => packetW op (operandW p)
  | .S2 => [op, byteAt p 1, byteAt p 2]
  | .S4 => [op, byteAt p 1, byteAt p 2, byteAt p 3, byteAt p 4]
  | .S8 => [op, byteAt p 1, byteAt p 2, byteAt p 3, byteAt p 4, byteAt p 5, byteAt p 6, byteAt p 7, byteAt p 8]
  | .WD => packetWD op (operandW p) (bytesWD p)
  | .L => packetL op (operandB p) (lineL p)

/-- The lengths a WD packet's format accepts: its four fixed bytes, then as many as they count (R111). -/
theorem neededLength_WD_eq_some_iff {p : Packet} {n : Nat} : neededLength .WD p = some n ↔ 4 ≤ p.length ∧ 4 + countWD p = n := by
  by_cases hfour : 4 ≤ p.length
  · simp [neededLength_WD p hfour, hfour]
  · simp [neededLength, not_le.mp hfour, hfour]

/-- The lengths an L packet's format accepts: its four fixed bytes, then as many as they count (R111). -/
theorem neededLength_L_eq_some_iff {p : Packet} {n : Nat} : neededLength .L p = some n ↔ 4 ≤ p.length ∧ 4 + countL p = n := by
  by_cases hfour : 4 ≤ p.length
  · simp [neededLength_L p hfour, hfour]
  · simp [neededLength, not_le.mp hfour, hfour]

/-- A packet of at least four bytes is its four fixed bytes and what follows them. -/
theorem exists_four_bytes {p : Packet} (h : 4 ≤ p.length) : ∃ a b c d rest, p = a :: b :: c :: d :: rest := by
  match p, h with
  | a :: b :: c :: d :: rest, _ => exact ⟨a, b, c, d, rest, rfl⟩

/-- The fields of a WD packet of its format's length spell the packet (R44). -/
theorem packetWD_of_fields {op : Byte} {rest : Packet} (hl : neededLength .WD (op :: rest) = some (op :: rest).length) :
    packetWD op (operandW (op :: rest)) (bytesWD (op :: rest)) = op :: rest := by
  obtain ⟨hfour, hcount⟩ := neededLength_WD_eq_some_iff.mp hl
  obtain ⟨_, hi, lo, n, bytes, heq⟩ := exists_four_bytes hfour
  cases heq
  have hn : bytes.length = n.toNat := (Nat.add_left_cancel (hcount.trans (Nat.add_comm bytes.length 4))).symm
  have hbytes : bytesWD (op :: hi :: lo :: n :: bytes) = bytes := List.take_of_length_le hn.le
  have hoffset : (operandW (op :: hi :: lo :: n :: bytes)).toNat = hi.toNat * 256 + lo.toNat := toNat_fromBe16 hi lo
  simp [packetWD, hbytes, hoffset, hn]

/-- The fields of an L packet of its format's length spell the packet (R44). -/
theorem packetL_of_fields {op : Byte} {rest : Packet} (hl : neededLength .L (op :: rest) = some (op :: rest).length) :
    packetL op (operandB (op :: rest)) (lineL (op :: rest)) = op :: rest := by
  obtain ⟨hfour, hcount⟩ := neededLength_L_eq_some_iff.mp hl
  obtain ⟨_, cap, hi, lo, line, heq⟩ := exists_four_bytes hfour
  cases heq
  have hn : line.length = hi.toNat * 256 + lo.toNat :=
    (Nat.add_left_cancel (hcount.trans (Nat.add_comm line.length 4))).symm
  have hline : lineL (op :: cap :: hi :: lo :: line) = line := List.take_of_length_le hn.le
  simp [packetL, hline, hn, operandB, byteAt]

/-- A packet of its format's length is spelt by its fields: no byte of it is outside them (R44). -/
theorem packetOfFields_eq {f : Format} {op : Byte} {rest : Packet}
    (hl : neededLength f (op :: rest) = some (op :: rest).length) : packetOfFields f op (op :: rest) = op :: rest := by
  cases f with
  | WD => exact packetWD_of_fields hl
  | L => exact packetL_of_fields hl
  | W =>
    have hw : (operandW (op :: rest)).toNat = _ := toNat_fromBe16 ..
    rw [packetOfFields, packetW, hw, be16_of_bytes]
    exact eq_map_byteAt (Option.some_inj.mp hl)
  | N | B | S2 | S4 | S8 => exact eq_map_byteAt (Option.some_inj.mp hl)

/-- The opcodes of the command map (R45). -/
def commandOpcodes : List Byte :=
  [0x01, 0x02, 0x03, 0x04, 0x05, 0x06, 0x10, 0x11, 0x12, 0x13, 0x20, 0x21, 0x22, 0x30, 0x40, 0x41, 0x42, 0x43, 0x44, 0x45]

/-- An opcode outside the list has no row in the map (R45). -/
theorem opcodeMap_eq_none {op : Byte} (h : op ∉ commandOpcodes) : opcodeMap op = none := by
  have hall : ∀ o : Byte, o ∉ commandOpcodes → (opcodeMap o).isNone = true := by decide
  exact Option.isNone_iff_eq_none.mp (hall op h)

/-- Every row of the map fills a well-formed command with the fields that its encoding spells again (R44, R45). -/
theorem encode_command {op : Byte} {f : Format} {command : Packet → Instr} (hm : opcodeMap op = some (f, command)) (p : Packet) :
    encode (command p) = packetOfFields f op p ∧ (command p).wf = true ∧ (command p).isRecord = false := by
  have hop : op ∈ commandOpcodes := by
    by_contra hout
    rw [opcodeMap_eq_none hout] at hm
    cases hm
  fin_cases hop <;> cases hm <;> exact ⟨rfl, by simp [Instr.wf, length_bytesWD_le, length_lineL_le], rfl⟩

/-- Settles O6: a packet that decodes is spelt by its format's fields, and so is the encoding of the command they fill. -/
theorem decodedCommandsEncodeToTheirPacket : Obligations.DecodedCommandsEncodeToTheirPacket := by
  intro p i h
  obtain ⟨op, rest, f, command, rfl, hm, hl, rfl⟩ := decodePacket_eq_ok h
  obtain ⟨hencode, hwf, hrec⟩ := encode_command hm (op :: rest)
  exact ⟨hencode.trans (packetOfFields_eq hl), hwf, hrec⟩

end Sys2Proof.Machine

/-! A built line read back (30_encoding.md R39 to R41, R43; 43_record_decoder.md R76). -/

namespace Sys2Proof.Machine

/-- Settles O8: each word is decoded by the decoder itself. -/
theorem sampleEncodingsDecode : Obligations.SampleEncodingsDecode := by
  unfold Obligations.SampleEncodingsDecode
  decide

/-- The bytes of a sequence and their checksum sum to 0 (R63). -/
theorem byteSum_append_checksum (bs : List Byte) : byteSum (bs ++ [checksum bs]) % 256 = 0 := by
  simp only [byteSum_append, byteSum_cons, byteSum_nil, toNat_checksum]
  omega

/-- A running total over the positions of a sequence is the sum of its bytes (R63). -/
theorem foldl_range_eq_byteSum {bs : List Byte} {n : Nat} {f : Nat → Nat} (hn : bs.length = n)
    (hf : ∀ k < n, f k = (bs.getD k 0).toNat) : (List.range n).foldl (fun s k => s + f k) 0 = byteSum bs := by
  subst hn
  induction bs using List.reverseRecOn with
  | nil => rfl
  | append_singleton bs b ih =>
    have hinit : ∀ k < bs.length, f k = (bs.getD k 0).toNat := fun k hk => by
      rw [hf k (by simp; omega), List.getD_append _ _ _ _ hk]
    have hlast : f bs.length = b.toNat := by simpa using hf bs.length (by simp)
    rw [List.length_append, List.length_singleton, List.range_succ, List.foldl_append, ih hinit]
    simp [hlast]

section BuiltLine

variable {h0 h1 h2 h3 : Byte} {payload : List Byte}

/-- Position 1 + 2k of a line with a 4-byte header holds byte `k` of header, payload and checksum (R41, R69). -/
theorem rdhex_encline_four {k : Nat} (hk : k < 5 + payload.length) :
    rdhex (encline [h0, h1, h2, h3] payload) (1 + 2 * k) 2 =
      ((h0 :: h1 :: h2 :: h3 :: (payload ++ [checksum (h0 :: h1 :: h2 :: h3 :: payload)])).getD k 0).toNat :=
  rdhex_encline _ _ k (by simp only [List.length_cons, List.length_nil]; omega)

/-- A built line's reclen field is its header's first byte (R40, R69). -/
theorem lineReclen_encline : lineReclen (encline [h0, h1, h2, h3] payload) = h0.toNat :=
  rdhex_encline_four (k := 0) (by omega)

/-- A built line's offset field is its header's second and third byte (R40, R69). -/
theorem lineOffset_encline : lineOffset (encline [h0, h1, h2, h3] payload) = fromBe16 h1 h2 := by
  rw [lineOffset, rdhex_four, rdhex_encline_four (k := 1) (by omega), rdhex_encline_four (k := 2) (by omega)]
  rfl

/-- A built line's rectype field is its header's last byte (R40, R69). -/
theorem lineRectype_encline : lineRectype (encline [h0, h1, h2, h3] payload) = h3 := by
  rw [lineRectype, rdhex_encline_four (k := 3) (by omega), BitVec.ofNat_toNat, BitVec.setWidth_eq]
  rfl

/-- A built line's data bytes are its payload (R40, R69). -/
theorem lineData_encline {i : Nat} (hi : i < payload.length) :
    lineData (encline [h0, h1, h2, h3] payload) i = payload.getD i 0 := by
  rw [lineData, show 9 + 2 * i = 1 + 2 * (i + 4) by omega, rdhex_encline_four (by omega), BitVec.ofNat_toNat, BitVec.setWidth_eq]
  exact List.getD_append _ _ _ _ hi

/-- The bytes of a line whose header counts its payload sum to 0 (R63, R69). -/
theorem lineSum_encline (hlen : h0.toNat = payload.length) : lineSum (encline [h0, h1, h2, h3] payload) % 256 = 0 := by
  rw [lineSum, lineReclen_encline, hlen, foldl_range_eq_byteSum (by simp) fun k hk => rdhex_encline_four (by omega)]
  exact byteSum_append_checksum (h0 :: h1 :: h2 :: h3 :: payload)

/-- A line whose header counts its payload is read as the record of that header and payload (R70, R76). -/
theorem readRecord_encline (hlen : h0.toNat = payload.length) :
    readRecord (encline [h0, h1, h2, h3] payload) = .ok ⟨h3, fromBe16 h1 h2, payload⟩ := by
  have hreclen : lineReclen (encline [h0, h1, h2, h3] payload) = payload.length := lineReclen_encline.trans hlen
  have hlength : 12 + 2 * payload.length ≤ (encline [h0, h1, h2, h3] payload).length := by simp; omega
  have hterm : (encline [h0, h1, h2, h3] payload).getD (11 + 2 * payload.length) 0 = Config.lf := by
    rw [show 11 + 2 * payload.length = 2 * (4 + payload.length) + 3 by omega]
    exact getD_encline_terminator [h0, h1, h2, h3] payload
  have hdata : (List.range payload.length).map (lineData (encline [h0, h1, h2, h3] payload)) = payload := by
    refine (List.map_congr_left fun i hi => ?_).trans (map_getD_range payload)
    exact lineData_encline (List.mem_range.mp hi)
  rw [readRecord_of_checks rfl (by rwa [hreclen]) (.inl (by rwa [hreclen])) (lineSum_encline hlen), lineRectype_encline,
    lineOffset_encline, hreclen, hdata]

end BuiltLine

/-- A well-formed record is read back from its line (R39, R76). -/
theorem readRecord_encodeRecord {r : Record} (hlen : r.data.length ≤ 255) : readRecord (encodeRecord r) = .ok r := by
  have h := readRecord_encline (h0 := BitVec.ofNat 8 r.data.length) (h1 := BitVec.ofNat 8 (r.offset.toNat / 256))
    (h2 := BitVec.ofNat 8 r.offset.toNat) (h3 := r.rectype) (payload := r.data) (by simp; omega)
  rwa [fromBe16_be16] at h

/-- A well-formed record's line decodes to the record's row (R43, R76). -/
theorem decodeLine_encodeRecord {cap : Byte} {r : Record} (hlen : r.data.length ≤ 255) :
    decodeLine cap (encodeRecord r) = .ok (recordInstr cap r) := by
  rw [decodeLine, readRecord_encodeRecord hlen]

/-- A rectype of 0x06 or more selects the row REC_INVALID (R43, R85). -/
theorem recordInstr_of_six_le {cap : Byte} {r : Record} (h : 6 ≤ r.rectype.toNat) :
    recordInstr cap r = .recInvalid r.rectype r.offset r.data := by
  have hne : ∀ t : Byte, t.toNat < 6 → r.rectype ≠ t := fun t ht heq => absurd (heq ▸ h) (Nat.not_le.mpr ht)
  rw [recordInstr, if_neg (hne 0x00 (by decide)), if_neg (hne 0x01 (by decide)), if_neg (hne 0x02 (by decide)),
    if_neg (hne 0x03 (by decide)), if_neg (hne 0x04 (by decide)), if_neg (hne 0x05 (by decide))]

/-- Settles O7: each row's line is the line of a record whose rectype selects the row. -/
theorem recordLinesDecodeToTheirRows : Obligations.RecordLinesDecodeToTheirRows := by
  intro cap i hwf hrec hcap
  cases i with
  | recData c o d =>
    cases hcap c o d rfl
    exact decodeLine_encodeRecord (of_decide_eq_true hwf)
  | recInvalid t o d =>
    simp only [Instr.wf, Bool.and_eq_true, decide_eq_true_eq] at hwf
    obtain ⟨hrectype, hlen⟩ := hwf
    exact (decodeLine_encodeRecord hlen).trans (congrArg _ (recordInstr_of_six_le hrectype))
  | recEof o d | recEsa o d | recSsa o d | recEla o d | recSla o d =>
    exact decodeLine_encodeRecord (of_decide_eq_true hwf)
  | _ => cases hrec

end Sys2Proof.Machine

/-! Every packet is answered (30_encoding.md R46, R49; 60_exceptions.md R111, R115). -/

namespace Sys2Proof.Machine

/-- HEXCHR with a nonzero reserved bit takes the OPERAND fault (R55). -/
theorem exec_hexchr_of_reserved {b : Byte} (hb : 16 ≤ b.toNat) (s : State) :
    exec (.hexchr b) s = .next (takeFault .operand s) :=
  if_pos ((highNibble_eq_zero_iff b).not.mpr (Nat.not_lt.mpr hb))

/-- An opcode outside the map is illegal whatever the packet's length (R49). -/
theorem decodePacket_of_unknown_opcode {p : Packet} {op : Byte} (hp : p.head? = some op) (hop : op ∉ commandOpcodes) :
    decodePacket p = .error .illegalOpcode := by
  obtain ⟨rest, rfl⟩ := List.head?_eq_some_iff.mp hp
  simp only [decodePacket, opcodeMap_eq_none hop]

/-- The format of an opcode (R45). -/
def opcodeFormat (op : Byte) : Option Format := (opcodeMap op).map Prod.fst

/-- The length of a format whose packets all have one (R44). -/
def fixedLength : Format → Option Nat
  | .N => some 1
  | .B => some 2
  | .W => some 3
  | .S2 => some 3
  | .S4 => some 5
  | .S8 => some 9
  | .WD => none
  | .L => none

/-- A format of fixed length needs that length of every packet (R111). -/
theorem neededLength_of_fixedLength {f : Format} {n : Nat} (h : fixedLength f = some n) (p : Packet) :
    neededLength f p = some n := by
  cases f with
  | WD | L => cases h
  | N | B | W | S2 | S4 | S8 => exact h

section WrongLength

variable {p : Packet} {op : Byte} {ops : List Byte}

/-- A packet whose length its opcode's format does not accept is malformed (R49). -/
theorem decodePacket_of_format {f : Format} (hp : p.head? = some op) (hf : opcodeFormat op = some f)
    (hl : neededLength f p ≠ some p.length) : decodePacket p = .error .malformedPacket := by
  obtain ⟨⟨_, command⟩, hm, rfl⟩ := Option.map_eq_some_iff.mp hf
  exact decodePacket_of_wrong_length hp hm hl

/-- A packet of another length than its opcode's fixed one is malformed (R49). -/
theorem decodePacket_of_fixed {n : Nat} (hp : p.head? = some op) (hops : ∀ o ∈ ops, (opcodeFormat o).bind fixedLength = some n)
    (hop : op ∈ ops) (hne : p.length ≠ n) : decodePacket p = .error .malformedPacket := by
  obtain ⟨f, hf, hn⟩ := Option.bind_eq_some_iff.mp (hops op hop)
  refine decodePacket_of_format hp hf fun hl => hne ?_
  rw [neededLength_of_fixedLength hn] at hl
  exact (Option.some_inj.mp hl).symm

/-- A WD packet without its four fixed bytes, or with more or fewer bytes than it counts, is malformed (R49). -/
theorem decodePacket_of_WD (hp : p.head? = some op) (hops : ∀ o ∈ ops, opcodeFormat o = some .WD) (hop : op ∈ ops)
    (hlen : p.length < 4 ∨ p.length ≠ 4 + countWD p) : decodePacket p = .error .malformedPacket :=
  decodePacket_of_format hp (hops op hop) fun hl => by
    obtain ⟨hfour, hcount⟩ := neededLength_WD_eq_some_iff.mp hl
    omega

/-- An L packet without its four fixed bytes, or with a line of another length than it gives, is malformed (R49). -/
theorem decodePacket_of_L (hp : p.head? = some op) (hop : opcodeFormat op = some .L)
    (hlen : p.length < 4 ∨ p.length ≠ 4 + countL p) : decodePacket p = .error .malformedPacket :=
  decodePacket_of_format hp hop fun hl => by
    obtain ⟨hfour, hcount⟩ := neededLength_L_eq_some_iff.mp hl
    omega

end WrongLength

/-- Settles O10: each illegal encoding is an error of `decodePacket`, but for HEXCHR's reserved bits, which its own rule checks. -/
theorem illegalEncodingsRaiseTheirFaults : Obligations.IllegalEncodingsRaiseTheirFaults := by
  intro s p rest hend hrun hport faults
  have illegal (h : decodePacket p = .error .illegalOpcode) : faults 0xE1 := step_packet_error hend hrun hport h
  have malformed (h : decodePacket p = .error .malformedPacket) : faults 0xE2 := step_packet_error hend hrun hport h
  refine ⟨fun hp => malformed (hp ▸ rfl), fun op hp => ⟨?_, ?_, ?_, ?_, ?_, ?_, ?_, ?_⟩, ?_⟩
  · exact fun hop => illegal (decodePacket_of_unknown_opcode hp hop)
  · exact fun hop hne => malformed (decodePacket_of_fixed hp (by decide) hop hne)
  · exact fun hop hne => malformed (decodePacket_of_fixed hp (by decide) hop hne)
  · exact fun hop hne => malformed (decodePacket_of_fixed hp (by decide) hop hne)
  · exact fun hop hne => malformed (decodePacket_of_fixed hp (by decide) (List.mem_singleton.mpr hop) hne)
  · exact fun hop hne => malformed (decodePacket_of_fixed hp (by decide) (List.mem_singleton.mpr hop) hne)
  · exact fun hop hlen => malformed (decodePacket_of_WD hp (by decide) hop hlen)
  · exact fun hop hlen => malformed (decodePacket_of_L hp (hop ▸ rfl) hlen)
  · rintro b rfl hb
    exact (step_command hend hrun hport rfl).trans (exec_hexchr_of_reserved hb _)

/-- A halted block answers a packet by its fault code and does nothing else (R115). -/
theorem step_of_halted {s : State} {p : Packet} {rest : List HostAction} (hend : s.endInImage) (hlegal : s.faultLegal)
    (hhalt : s.halted) (hport : s.port = .command p :: rest) :
    step s = .next (({ s with port := rest }).respond [s.faultCode]) := by
  simp only [step, fetch, stuckReason_eq_none hend hlegal, hport, prologue]
  rw [if_pos hhalt]

/-- The codes of the five faults (R112). -/
def faultCodes : List Byte := [0xE1, 0xE2, 0xE3, 0xE4, 0xE5]

/-- The code of a fault cause is one of them (R112). -/
theorem faultByte_mem_faultCodes (c : FaultCause) : faultByte c ∈ faultCodes := by
  cases c <;> decide

/-- A halted block's legal code is one of them (R20, R115). -/
theorem faultCode_mem_of_halted {s : State} (hlegal : s.faultLegal) (hhalt : s.halted) : s.faultCode ∈ faultCodes := by
  unfold State.faultLegal at hlegal
  simpa [faultCodeLegal, faultCodes, or_assoc, show s.faultCode ≠ 0#8 from hhalt] using hlegal

/-- `t` is `s` after one answer: a completed command's, or the fault code alone (R46). -/
def AnsweredOnce (s t : State) : Prop :=
  t.port = s.port ∧ ∃ r, t.responses = s.responses ++ [r] ∧
    ((∃ body, r = 0x00 :: body) ∨ (r = [t.faultCode] ∧ t.faultCode ∈ faultCodes))

/-- Taking a fault is one answer (R114). -/
theorem answeredOnce_takeFault (c : FaultCause) (s : State) : AnsweredOnce s (takeFault c s) :=
  ⟨rfl, _, rfl, .inr ⟨rfl, faultByte_mem_faultCodes c⟩⟩

/-- A command's own rule gives one answer (R46). -/
theorem exec_answeredOnce {i : Instr} {s t : State} (h : exec i s = .next t) : AnsweredOnce s t := by
  obtain ⟨-, -, -, -, -, -, r, rfl⟩ | ⟨c, -, rfl⟩ | ⟨-, rfl⟩ | ⟨b, -, rfl⟩ | ⟨-, rfl⟩ | ⟨o, b, -, -, rfl⟩ | ⟨-, rfl⟩ := exec_cases h
  case inr.inl => exact answeredOnce_takeFault c s
  all_goals exact ⟨rfl, _, rfl, .inl ⟨_, rfl⟩⟩

/-- A packet at the port of a block with a step is taken and answered once (R46, R111). -/
theorem step_answeredOnce {s : State} {p : Packet} {rest : List HostAction} (hend : s.endInImage) (hlegal : s.faultLegal)
    (hport : s.port = .command p :: rest) : ∃ t, step s = .next t ∧ AnsweredOnce { s with port := rest } t := by
  by_cases hrun : s.running
  · cases hd : decodePacket p with
    | error c => exact ⟨_, step_packet_error hend hrun hport hd, answeredOnce_takeFault c _⟩
    | ok i =>
      obtain ⟨t, ht⟩ := exec_completes i { s with port := rest } hend
      exact ⟨t, (step_command hend hrun hport hd).trans ht, exec_answeredOnce ht⟩
  · exact ⟨_, step_of_halted hend hlegal hrun hport, rfl, _, rfl, .inr ⟨rfl, faultCode_mem_of_halted hlegal hrun⟩⟩

/-- Settles O14: `step_answeredOnce`, its answer written out. -/
theorem everyCommandIsAnsweredOnce : Obligations.EveryCommandIsAnsweredOnce := by
  intro s p rest hend hlegal hport
  obtain ⟨t, hstep, htport, r, hr, hform⟩ := step_answeredOnce hend hlegal hport
  exact ⟨t, r, hstep, htport, hr, hform⟩

end Sys2Proof.Machine

/-! The pseudo-commands CKSUM and CKVERIFY (30_encoding.md R52; 41_checksum.md R63 to R67). -/

namespace Sys2Proof.Machine

/-- What a CKCLR leaves (R64). -/
def State.clearSum (s : State) : State := ({ s with ck := 0 }).respond [statusOk]

/-- What a CKADD leaves (R65). -/
def State.addByte (s : State) (b : Byte) : State :=
  ({ s with ck := BitVec.ofNat 8 ((s.ck.toNat + b.toNat) % 256) }).respond [statusOk]

/-- What a CKADD of each of the bytes leaves: `CK` wraps at every addition, and each was answered (R65). -/
def State.addBytes (s : State) (bytes : List Byte) : State :=
  { s with
    ck := BitVec.ofNat 8 ((s.ck.toNat + byteSum bytes) % 256)
    responses := s.responses ++ List.replicate bytes.length [statusOk] }

/-- No addition leaves the state as it is. -/
theorem State.addBytes_nil (s : State) : s.addBytes [] = s := by
  have hck : BitVec.ofNat 8 (s.ck.toNat % 256) = s.ck := BitVec.eq_of_toNat_eq (by simpa using s.ck.isLt)
  simp [State.addBytes, hck]

/-- The bytes are added one after the other (R65). -/
theorem State.addBytes_cons (s : State) (b : Byte) (bytes : List Byte) : s.addBytes (b :: bytes) = (s.addByte b).addBytes bytes := by
  simp [State.addBytes, State.addByte, State.respond, List.replicate_succ, Nat.add_assoc]

/-- Sent to a running block, CKCLR completes (R64). -/
theorem cmd_ckclr {s : State} (hend : s.endInImage) (hrun : s.running) : cmd .ckclr s = .next ([statusOk], s.clearSum) := by
  rw [cmd_eq_next (t := s.clearSum) hend hrun rfl rfl, State.clearSum, State.lastResponse_respond]

/-- Sent to a running block, CKADD completes (R65). -/
theorem cmd_ckadd (b : Byte) {s : State} (hend : s.endInImage) (hrun : s.running) :
    cmd (.ckadd b) s = .next ([statusOk], s.addByte b) := by
  rw [cmd_eq_next (t := s.addByte b) hend hrun rfl rfl, State.addByte, State.lastResponse_respond]

/-- Sent to a running block, CKADD of each of the bytes completes, and what follows starts where the last one ends (R52, R65). -/
theorem cmdAll_ckadd (bytes : List Byte) (rest : List Instr) {s : State} (hend : s.endInImage) (hrun : s.running) :
    cmdAll [statusOk] (bytes.map .ckadd ++ rest) s = cmdAll [statusOk] rest (s.addBytes bytes) := by
  induction bytes generalizing s with
  | nil => rw [State.addBytes_nil]; rfl
  | cons b bytes ih =>
    rw [List.map_cons, List.cons_append, cmdAll_cons_of_completed (cmd_ckadd b hend hrun) rfl,
      ih (s := s.addByte b) hend hrun, State.addBytes_cons]

/-- `CK` holds the sum of the bytes mod 256 (R16, R64, R65). -/
theorem State.toNat_ck_addBytes_clearSum (s : State) (bytes : List Byte) :
    (s.clearSum.addBytes bytes).ck.toNat = byteSum bytes % 256 := by
  simp [State.clearSum, State.addBytes]

/-- A pseudo-command whose last command only answers gives that answer, from the state in which `CK` is the sum (R52). -/
theorem cmdAll_sum (bytes : List Byte) {i : Instr} {s t : State} {r : Packet} (hend : s.endInImage) (hrun : s.running)
    (ht : t = s.clearSum.addBytes bytes) (hd : decodePacket (encode i) = .ok i) (hi : exec i t = .next (t.respond (statusOk :: r))) :
    cmdAll [] ([.ckclr] ++ bytes.map .ckadd ++ [i]) s = .next (statusOk :: r, t.respond (statusOk :: r)) := by
  subst ht
  have hlast := cmd_eq_next (s := s.clearSum.addBytes bytes) hend hrun hd hi
  rw [State.lastResponse_respond] at hlast
  rw [List.append_assoc, List.singleton_append, cmdAll_cons_of_completed (cmd_ckclr hend hrun) rfl,
    cmdAll_ckadd bytes [i] (s := s.clearSum) hend hrun]
  exact cmdAll_cons_of_completed hlast rfl

/-- CKTST's outcome is whether `CK` is 0 as a number (R67). -/
theorem zeroFlag_eq (ck : Byte) : zeroFlag ck = if ck.toNat = 0 then 0x01 else 0x00 := by
  simp only [zeroFlag, BitVec.toNat_eq]
  rfl

/-- Settles O29: both answer from the state in which `CK` is the sum, CKGET its negation and CKTST whether it is 0. -/
theorem pseudoCommandsComputeTheChecksum : Obligations.PseudoCommandsComputeTheChecksum := by
  intro bytes s hend hrun
  have hck := s.toNat_ck_addBytes_clearSum bytes
  have hget := cmdAll_sum bytes (i := .ckget) hend hrun rfl rfl rfl
  have htst := cmdAll_sum bytes (i := .cktst) hend hrun rfl rfl rfl
  rw [hck] at hget
  rw [zeroFlag_eq, hck] at htst
  exact ⟨⟨_, hget, hck, rfl, rfl, rfl, rfl, rfl, rfl⟩, ⟨_, htst, hck, rfl, rfl, rfl, rfl, rfl, rfl⟩⟩

end Sys2Proof.Machine

/-! A line that cannot be sent (92_eei_decisions.md D17). -/

namespace Sys2Proof.Machine

/-- Settles O58: TRKINIT completes, and the loop refuses the first line. -/
theorem linesThatCannotBeSentAreRefused : Obligations.LinesThatCannotBeSentAreRefused := by
  intro cap l later k s hend hrun hlong
  obtain ⟨t, -, hinit, hdone, -⟩ := cmd_completes (i := .trkinit) hend hrun rfl rfl rfl
  rw [reconstruct, hinit, andThen_next, if_pos hdone, reconstructLoop_long_line cap l later k [] t hlong]

end Sys2Proof.Machine

/-! The laws of the hex digit codec and its commands (40_hex_codec.md R53 to R62). -/

namespace Sys2Proof.Machine

section Characters

variable {c : Byte}

/-- A decimal digit's value (R53). -/
theorem toNat_hexval_of_digit (h : 0x30 ≤ c.toNat ∧ c.toNat ≤ 0x39) : (hexval c).toNat = c.toNat - 0x30 := by
  rw [hexval, if_pos h, BitVec.toNat_ofNat]
  omega

/-- An uppercase letter's value (R53). -/
theorem toNat_hexval_of_upper (h : 0x41 ≤ c.toNat ∧ c.toNat ≤ 0x46) : (hexval c).toNat = c.toNat - 0x41 + 10 := by
  rw [hexval, if_neg (by omega), if_pos h, BitVec.toNat_ofNat]
  omega

/-- A lowercase letter's value (R53). -/
theorem toNat_hexval_of_lower (h : 0x61 ≤ c.toNat ∧ c.toNat ≤ 0x66) : (hexval c).toNat = c.toNat - 0x61 + 10 := by
  rw [hexval, if_neg (by omega), if_neg (by omega), if_pos h, BitVec.toNat_ofNat]
  omega

/-- A byte that is no hex character has the value 0 (R53). -/
theorem hexval_of_not_hex (hdigit : ¬(0x30 ≤ c.toNat ∧ c.toNat ≤ 0x39)) (hupper : ¬(0x41 ≤ c.toNat ∧ c.toNat ≤ 0x46))
    (hlower : ¬(0x61 ≤ c.toNat ∧ c.toNat ≤ 0x66)) : hexval c = 0 := by
  rw [hexval, if_neg hdigit, if_neg hupper, if_neg hlower]

/-- The uppercase letter of a lowercase one is 0x20 below it. -/
theorem toNat_sub_of_lower (h : 0x61 ≤ c.toNat ∧ c.toNat ≤ 0x66) : (c - 0x20).toNat = c.toNat - 0x20 :=
  BitVec.toNat_sub_of_le (BitVec.le_def.mpr (Nat.le_trans (by decide) h.1))

/-- A lowercase letter and its uppercase letter have one value (R62). -/
theorem hexval_sub_of_lower (h : 0x61 ≤ c.toNat ∧ c.toNat ≤ 0x66) : hexval c = hexval (c - 0x20) := by
  have hsub := toNat_sub_of_lower h
  apply BitVec.eq_of_toNat_eq
  rw [toNat_hexval_of_lower h, toNat_hexval_of_upper (by omega), hsub]
  omega

end Characters

section Nibbles

variable {n : BitVec 4}

/-- A nibble up to 9 is written as a decimal digit (R55). -/
theorem hexchr_of_le_nine (h : n.toNat ≤ 9) : hexchr n = BitVec.ofNat 8 (0x30 + n.toNat) := if_pos h

/-- A nibble from 10 is written as an uppercase letter (R55). -/
theorem hexchr_of_ten_le (h : 10 ≤ n.toNat) : hexchr n = BitVec.ofNat 8 (0x41 + (n.toNat - 10)) := if_neg (by omega)

/-- A decimal digit's code (R55). -/
theorem toNat_hexchr_of_le_nine (h : n.toNat ≤ 9) : (hexchr n).toNat = 0x30 + n.toNat := by
  rw [hexchr_of_le_nine h, BitVec.toNat_ofNat]
  omega

/-- An uppercase letter's code (R55). -/
theorem toNat_hexchr_of_ten_le (h : 10 ≤ n.toNat) : (hexchr n).toNat = 0x41 + (n.toNat - 10) := by
  rw [hexchr_of_ten_le h, BitVec.toNat_ofNat]
  omega

end Nibbles

/-- Only decimal digits and uppercase letters are ever written (R55). -/
theorem hexchr_digit_or_upper (n : BitVec 4) :
    (0x30 ≤ (hexchr n).toNat ∧ (hexchr n).toNat ≤ 0x39) ∨ (0x41 ≤ (hexchr n).toNat ∧ (hexchr n).toNat ≤ 0x46) := by
  by_cases h : n.toNat ≤ 9
  · have := toNat_hexchr_of_le_nine h
    omega
  · have := toNat_hexchr_of_ten_le (Nat.not_le.mp h)
    omega

/-- Decimal digits and uppercase letters are written as they were read (R62). -/
theorem hexchr_hexval_of_digit_or_upper {c : Byte}
    (h : (0x30 ≤ c.toNat ∧ c.toNat ≤ 0x39) ∨ (0x41 ≤ c.toNat ∧ c.toNat ≤ 0x46)) : hexchr (hexval c) = c := by
  apply BitVec.eq_of_toNat_eq
  obtain hdigit | hupper := h
  · have hv := toNat_hexval_of_digit hdigit
    rw [toNat_hexchr_of_le_nine (by omega)]
    omega
  · have hv := toNat_hexval_of_upper hupper
    rw [toNat_hexchr_of_ten_le (by omega)]
    omega

/-- The high nibble is the quotient by 16 (R60). -/
@[simp] theorem toNat_highNibble (b : Byte) : (highNibble b).toNat = b.toNat / 16 := by
  rw [highNibble, BitVec.extractLsb'_toNat, Nat.shiftRight_eq_div_pow]
  omega

/-- The low nibble is the remainder by 16 (R60). -/
@[simp] theorem toNat_lowNibble (b : Byte) : (lowNibble b).toNat = b.toNat % 16 := rfl

/-- HEXCHR of a byte whose reserved bits are 0 answers the character of the nibble (R55). -/
theorem exec_hexchr_of_nibble {b : Byte} (hb : b.toNat < 16) (s : State) :
    exec (.hexchr b) s = .next (s.respond [statusOk, hexchr (lowNibble b)]) :=
  if_neg (not_not.mpr ((highNibble_eq_zero_iff b).mpr hb))

/-- A run of characters is read as its two parts, the first the more significant (R56). -/
theorem rdhex_add (s : List Byte) (i j k : Nat) : rdhex s i (j + k) = rdhex s i j * 16 ^ k + rdhex s (i + j) k := by
  induction k with
  | zero => simp
  | succ k ih =>
    rw [← Nat.add_assoc, rdhex_succ, ih, rdhex_succ, Nat.pow_succ, Nat.add_assoc i j k]
    ring

/-- Settles O20: one clause per range of `hexval`. -/
theorem hexvalMapsEveryCharacter : Obligations.HexvalMapsEveryCharacter :=
  fun _ => ⟨toNat_hexval_of_digit, toNat_hexval_of_upper, toNat_hexval_of_lower, hexval_of_not_hex⟩

/-- Settles O21: HEXVAL answers the nibble widened to a byte, and nothing else is written. -/
theorem hexvalAnswersTheNibble : Obligations.HexvalAnswersTheNibble := by
  intro c s
  refine ⟨decodePacket_encode (i := .hexval c) rfl rfl, ?_⟩
  rw [BitVec.ofNat_toNat]
  rfl

/-- Settles O22: below 16 the byte is its own low nibble, from 16 on a reserved bit is set. -/
theorem hexchrAnswersTheCharacterOrFaults : Obligations.HexchrAnswersTheCharacterOrFaults := by
  intro b s
  have hlow : b.toNat < 16 → (lowNibble b).toNat = b.toNat := Nat.mod_eq_of_lt
  refine ⟨decodePacket_encode (i := .hexchr b) rfl rfl, fun hdigit => ?_, fun hletter => ?_, fun h => exec_hexchr_of_reserved h s⟩
  · have hn := hlow (by omega)
    rw [exec_hexchr_of_nibble (by omega), hexchr_of_le_nine (by omega), hn]
    rfl
  · have hn := hlow (by omega)
    rw [exec_hexchr_of_nibble (by omega), hexchr_of_ten_le (by omega), hn]
    rfl

/-- Settles O23: each answer is the big-endian bytes of what `rdhex` reads, split into pairs of characters. -/
theorem hexReadsAnswerTheirValues : Obligations.HexReadsAnswerTheirValues := by
  intro c0 c1 c2 c3 c4 c5 c6 c7 s v2 v4 v8
  have h2 : rdhex [c0, c1] 0 2 = v2 := rdhex_two _ _
  have h4 : rdhex [c0, c1, c2, c3] 0 4 = v4 := by
    rw [rdhex_four, rdhex_two, rdhex_two, ← Nat.add_assoc]
    rfl
  have h8 : rdhex [c0, c1, c2, c3, c4, c5, c6, c7] 0 8 = v8 := by
    have hhigh : rdhex [c0, c1, c2, c3, c4, c5, c6, c7] 0 4 = v4 := h4
    have hlow : rdhex [c0, c1, c2, c3, c4, c5, c6, c7] 4 4 =
        ((hexval c4).toNat * 16 + (hexval c5).toNat) * 256 + ((hexval c6).toNat * 16 + (hexval c7).toNat) := by
      rw [rdhex_four, rdhex_two, rdhex_two]
      rfl
    rw [rdhex_add _ 0 4 4, hhigh, hlow]
    simp only [v8]
    omega
  refine ⟨⟨decodePacket_encode (i := .hex2rd c0 c1) rfl rfl, ?_⟩,
    ⟨decodePacket_encode (i := .hex4rd c0 c1 c2 c3) rfl rfl, ?_⟩,
    ⟨decodePacket_encode (i := .hex8rd c0 c1 c2 c3 c4 c5 c6 c7) rfl rfl, ?_⟩⟩
  · rw [← h2]; rfl
  · rw [← h4]; rfl
  · rw [← h8]; rfl

/-- Settles O24: the two nibbles are the quotient and the remainder by 16. -/
theorem hex2wrAnswersTwoCharacters : Obligations.Hex2wrAnswersTwoCharacters := by
  intro b s digit
  have hchars : wrhex2 b = [digit (b.toNat / 16), digit (b.toNat % 16)] := by
    have hchr : ∀ n, hexchr n = digit n.toNat := fun _ => rfl
    rw [wrhex2, hchr, hchr, toNat_highNibble, toNat_lowNibble]
  refine ⟨decodePacket_encode (i := .hex2wr b) rfl rfl, hchars, ?_⟩
  rw [← List.singleton_append, ← hchars]
  rfl

/-- Settles O25: the last law turns on `hexchr` writing only digits and uppercase letters; a lowercase letter is read as its uppercase
letter, any other byte as 0. -/
theorem codecFunctionsObeyTheirLaws : Obligations.CodecFunctionsObeyTheirLaws := by
  refine ⟨hexval_hexchr, fun _ => hexval_sub_of_lower, fun b => (rdhex_two _ _).trans (hexval_wrhex2 b), fun c => ⟨⟨fun h => ?_,
    hexchr_hexval_of_digit_or_upper⟩, fun hlower => ?_, fun hdigit hupper hlower => ?_⟩⟩
  · have hc := hexchr_digit_or_upper (hexval c)
    rwa [h] at hc
  · have hsub := toNat_sub_of_lower hlower
    rw [hexval_sub_of_lower hlower]
    exact hexchr_hexval_of_digit_or_upper (.inr (by omega))
  · rw [hexval_of_not_hex hdigit hupper hlower]
    rfl

end Sys2Proof.Machine

/-! The checksum and its accumulator commands (41_checksum.md R63 to R68). -/

namespace Sys2Proof.Machine

/-- Only the checksum balances the sum of a sequence (R63). -/
theorem eq_checksum_of_balanced {bytes : List Byte} {c : Byte} (h : byteSum (bytes ++ [c]) % 256 = 0) : c = checksum bytes := by
  apply BitVec.eq_of_toNat_eq
  rw [toNat_checksum]
  simp only [byteSum_append, byteSum_cons, byteSum_nil] at h
  omega

/-- Settles O26: the checksum balances the sum, and a byte that does is congruent to it mod 256. -/
theorem checksumIsTheOneBalancingByte : Obligations.ChecksumIsTheOneBalancingByte := by
  refine ⟨toNat_checksum, fun bytes c => ⟨eq_checksum_of_balanced, fun hc => ?_⟩⟩
  rw [hc]
  exact byteSum_append_checksum bytes

/-- The order of the bytes does not matter to the sum (R68). -/
theorem byteSum_perm {bs cs : List Byte} (h : bs.Perm cs) : byteSum bs = byteSum cs := (h.map BitVec.toNat).sum_eq

/-- A byte 0x00 does not matter to the sum (R68). -/
theorem byteSum_insert_zero (bs cs : List Byte) : byteSum (bs ++ [0x00] ++ cs) = byteSum (bs ++ cs) := by
  simp

/-- One byte changed changes the sum by as much as the byte changed (R68). -/
theorem byteSum_change (bs cs : List Byte) (b c : Byte) :
    byteSum (bs ++ [b] ++ cs) + c.toNat = byteSum (bs ++ [c] ++ cs) + b.toNat := by
  simp only [byteSum_append, byteSum_cons, byteSum_nil]
  omega

/-- One byte changed changes the sum mod 256, for two bytes differ by less than 256 (R68). -/
theorem byteSum_mod_ne_of_change (bs cs : List Byte) {b c : Byte} (h : b ≠ c) :
    byteSum (bs ++ [b] ++ cs) % 256 ≠ byteSum (bs ++ [c] ++ cs) % 256 := by
  intro hmod
  apply h
  apply BitVec.eq_of_toNat_eq
  have hchange := byteSum_change bs cs b c
  omega

/-- Settles O30: the first two laws hold of the sum itself; the last is the difference a changed byte makes, which is below 256. -/
theorem checksumArithmeticLaws : Obligations.ChecksumArithmeticLaws :=
  ⟨fun _ _ h => congrArg (· % 256) (byteSum_perm h), fun bs cs => congrArg (· % 256) (byteSum_insert_zero bs cs),
    fun bs cs b c => ⟨byteSum_change bs cs b c, byteSum_mod_ne_of_change bs cs⟩⟩

/-- CKCLR completes from every state (R64). -/
theorem exec_ckclr (s : State) : exec .ckclr s = .next s.clearSum := rfl

/-- CKADD completes from every state (R65). -/
theorem exec_ckadd (b : Byte) (s : State) : exec (.ckadd b) s = .next (s.addByte b) := rfl

/-- Settles O27: both complete from every state, writing `CK` and the answer alone. -/
theorem ckclrAndCkaddUpdateCk : Obligations.CkclrAndCkaddUpdateCk := fun b s =>
  ⟨⟨decodePacket_encode (i := .ckclr) rfl rfl, exec_ckclr s⟩, ⟨decodePacket_encode (i := .ckadd b) rfl rfl, exec_ckadd b s⟩⟩

/-- CKGET completes from every state and answers the two's complement of `CK` (R66). -/
theorem exec_ckget (s : State) :
    exec .ckget s = .next (s.respond [statusOk, BitVec.ofNat 8 ((256 - s.ck.toNat) % 256)]) := rfl

/-- CKTST completes from every state and answers whether `CK` is 0 (R67). -/
theorem exec_cktst (s : State) : exec .cktst s = .next (s.respond [statusOk, zeroFlag s.ck]) := rfl

/-- Where `CK` is the sum of some bytes mod 256, CKGET answers their checksum (R63, R66). -/
theorem exec_ckget_of_sum {s : State} {bytes : List Byte} (h : s.ck.toNat = byteSum bytes % 256) :
    exec .ckget s = .next (s.respond [statusOk, checksum bytes]) := by
  rw [exec_ckget, h, checksum]

/-- Settles O28: both only answer, from `CK`. -/
theorem ckgetAndCktstAnswerFromCk : Obligations.CkgetAndCktstAnswerFromCk := fun s =>
  ⟨⟨decodePacket_encode (i := .ckget) rfl rfl, exec_ckget s, fun _ h => exec_ckget_of_sum h⟩,
    ⟨decodePacket_encode (i := .cktst) rfl rfl, exec_cktst s⟩⟩

end Sys2Proof.Machine

/-! The record encoder commands and the lines they build (42_record_encoder.md R69 to R75). -/

namespace Sys2Proof.Machine

/-- Every character of a sequence of written bytes is a nibble's (R60). -/
theorem exists_hexchr_of_mem_flatMap_wrhex2 {bs : List Byte} {c : Byte} (h : c ∈ bs.flatMap wrhex2) : ∃ n, c = hexchr n := by
  obtain ⟨b, -, hc⟩ := List.mem_flatMap.mp h
  obtain rfl | hc := List.mem_cons.mp hc
  · exact ⟨highNibble b, rfl⟩
  · exact ⟨lowNibble b, List.mem_singleton.mp hc⟩

/-- Between its mark and its terminator a built line holds the characters of nibbles alone (R69). -/
theorem exists_hexchr_getD_encline (h p : List Byte) {i : Nat} (hi : i < 2 * (h.length + p.length) + 2) :
    ∃ n, (encline h p).getD (i + 1) 0 = hexchr n := by
  have hlen : i < ((h ++ p ++ [checksum (h ++ p)]).flatMap wrhex2).length := by simp; omega
  simp only [encline, List.cons_append, List.nil_append, List.getD_cons_succ]
  rw [List.getD_append _ _ _ _ hlen, List.getD_eq_getElem _ _ hlen]
  exact exists_hexchr_of_mem_flatMap_wrhex2 (List.getElem_mem hlen)

/-- The length of a built line whose header has 4 bytes (R70). -/
theorem length_encline_four (h0 h1 h2 h3 : Byte) (payload : List Byte) :
    (encline [h0, h1, h2, h3] payload).length = 12 + 2 * payload.length := by
  rw [length_encline]
  simp only [List.length_cons, List.length_nil]
  omega

/-- A well-formed record's line decodes to the record's classification (R75, R76). -/
theorem decodeRecordLine_encodeRecord {r : Record} (hlen : r.data.length ≤ 255) (cap : Byte) :
    decodeRecordLine (encodeRecord r) cap = classify cap r := by
  rw [decodeRecordLine, readRecord_encodeRecord hlen]

/-- The line of a line response follows its three fixed bytes (R45). -/
@[simp] theorem drop_lineResponse (line : Line) : (lineResponse line).drop 3 = line := rfl

/-- The fixed bytes of a line response are the status and the line's length (R45). -/
theorem lineResponse_of_length {line : Line} {n : Nat} (h : line.length = n) :
    lineResponse line = [statusOk] ++ be16 n ++ line := by
  rw [lineResponse, h]

/-- ENCDAT of 1 to 255 bytes completes from every state with the data record's line (R72). -/
theorem exec_encdat_of_length {bytes : List Byte} (hpos : 0 < bytes.length) (hlt : bytes.length < 256) (offset : Addr) (s : State) :
    exec (.encdat offset bytes) s = .next (s.respond (lineResponse (encodeRecord ⟨0x00, offset, bytes⟩))) :=
  if_neg (by simp only [Config.maxReclen]; omega)

/-- ENCDAT of no bytes breaks its contract (R71, R72). -/
theorem exec_encdat_nil (offset : Addr) (s : State) : exec (.encdat offset []) s = .next (takeFault .contract s) := rfl

/-- ENCELA completes from every state with the extended linear address record's line (R73). -/
theorem exec_encela (ulba : Addr) (s : State) :
    exec (.encela ulba) s = .next (s.respond (lineResponse (encodeRecord ⟨0x04, 0, be16 ulba.toNat⟩))) := rfl

/-- The header of an extended linear address record is the same for every address (R73). -/
theorem encodeRecord_ela (ulba : Addr) :
    encodeRecord ⟨0x04, 0, be16 ulba.toNat⟩ = encline [0x02, 0x00, 0x00, 0x04] (be16 ulba.toNat) := by
  simp only [encodeRecord, length_be16]
  rfl

/-- ENCEOF completes from every state with the end-of-file record's line (R74). -/
theorem exec_enceof (start : Addr) (s : State) :
    exec (.enceof start) s = .next (s.respond (lineResponse (encodeRecord ⟨0x01, start, []⟩))) := rfl

/-- A command that answers a well-formed record's line answers one that decodes to the record's classification (R75). -/
theorem answered_line_decodes {i : Instr} {s : State} {r : Record} {cap : Byte} {d : DecodeResult}
    (hexec : exec i s = .next (s.respond (lineResponse (encodeRecord r)))) (hlen : r.data.length ≤ 255) (hd : classify cap r = d) :
    ∃ t, exec i s = .next t ∧ decodeRecordLine (t.lastResponse.drop 3) cap = d :=
  ⟨_, hexec, by rw [State.lastResponse_respond, drop_lineResponse, decodeRecordLine_encodeRecord hlen, hd]⟩

/-- A data record that fits the capacity is classified as its data (R79). -/
theorem classify_data {cap : Byte} {offset : Addr} {data : List Byte} (hcap : data.length ≤ cap.toNat) :
    classify cap ⟨0x00, offset, data⟩ = .data offset data :=
  if_neg (Nat.not_lt.mpr hcap)

/-- A record of type 0x04 at offset 0 is classified as the address its two bytes spell (R83). -/
theorem classify_ela (cap : Byte) (w : Addr) : classify cap ⟨0x04, 0, be16 w.toNat⟩ = .extendedLinearAddress w :=
  congrArg DecodeResult.extendedLinearAddress (fromBe16_be16 w)

/-- Settles O34: each command answers its record's line, which is read back as the record and classified. -/
theorem encoderOutputDecodesBack : Obligations.EncoderOutputDecodesBack := by
  intro offset bytes cap s
  refine ⟨fun hpos hlt hcap => ?_, ?_, ?_⟩
  · exact answered_line_decodes (exec_encdat_of_length hpos hlt offset s) (Nat.le_of_lt_succ hlt) (classify_data hcap)
  · exact answered_line_decodes (exec_encela offset s) (by decide : 2 ≤ 255) (classify_ela cap offset)
  · exact answered_line_decodes (exec_enceof offset s) (Nat.zero_le _) rfl

/-- Settles O31: the characters between mark and terminator are nibbles' characters, and reading is `readRecord_encline`. -/
theorem builtLinesAreRecords : Obligations.BuiltLinesAreRecords := by
  intro h0 h1 h2 h3 payload line
  refine ⟨?_, rfl, ?_, fun i hpos hle => ?_, readRecord_encline⟩
  · exact length_encline_four ..
  · rw [show 11 + 2 * payload.length = 2 * (4 + payload.length) + 3 by omega]
    exact getD_encline_terminator [h0, h1, h2, h3] payload
  · obtain ⟨k, rfl⟩ := Nat.exists_eq_add_of_le' hpos
    obtain ⟨n, hn⟩ := exists_hexchr_getD_encline [h0, h1, h2, h3] payload (i := k)
      (by simp only [List.length_cons, List.length_nil]; omega)
    rw [hn]
    exact hexchr_digit_or_upper n

/-- Settles O32: the count field holds up to 255 bytes, and the data record's line is built from the header written out. -/
theorem encdatAnswersTheDataRecordLine : Obligations.EncdatAnswersTheDataRecordLine := by
  intro offset bytes s hi lo n line
  refine ⟨fun hlen => ?_, fun ⟨hpos, hlt⟩ => ?_, ?_⟩
  · exact decodePacket_packetWD rfl offset hlen
  · exact ⟨length_encline_four .., exec_encdat_of_length hpos hlt offset s⟩
  · rintro rfl
    exact exec_encdat_nil offset s

/-- Settles O33: the header and payload of each record written out; a line's length does not depend on the operand. -/
theorem encelaAndEnceofAnswerTheirLines : Obligations.EncelaAndEnceofAnswerTheirLines := by
  intro w s hi lo
  refine ⟨⟨decodePacket_packetW rfl w, ?_⟩, ⟨decodePacket_packetW rfl w, ?_⟩⟩
  · rw [exec_encela, encodeRecord_ela, lineResponse_of_length (n := 16) (length_encline_four ..)]
    rfl
  · rw [exec_enceof, lineResponse_of_length (n := 12) (length_encline_four ..)]
    rfl

end Sys2Proof.Machine

/-! What the record decoder answers (43_record_decoder.md R76 to R89). -/

namespace Sys2Proof.Machine

/-- The mark is a line's first character exactly when position 0 reads as the mark (R76 step 1). -/
theorem head?_eq_mark_iff {line : Line} : line.head? = some Config.mark ↔ line.getD 0 0 = Config.mark := by
  cases line with
  | nil => decide
  | cons c rest => simp

/-- The checks of R76 steps 2 to 6: the length that the reclen field asks for, the terminator and the sum. -/
def checksPass (line : Line) : Prop :=
  12 + 2 * lineReclen line ≤ line.length ∧
  (line.getD (11 + 2 * lineReclen line) 0 = Config.lf ∨ line.getD (11 + 2 * lineReclen line) 0 = Config.cr) ∧
  lineSum line % 256 = 0

/-- A line shorter than its reclen field asks for does not pass (R76 step 4). -/
theorem not_checksPass_of_short {line : Line} (h : line.length < 12 + 2 * lineReclen line) : ¬checksPass line :=
  fun ⟨hreq, _⟩ => Nat.not_le.mpr h hreq

/-- The record that a line's fields spell (R40). -/
def lineRecord (line : Line) : Record :=
  ⟨lineRectype line, lineOffset line, (List.range (lineReclen line)).map (lineData line)⟩

/-- A record has as many data bytes as its reclen field says (R39). -/
theorem length_lineRecord_data (line : Line) : (lineRecord line).data.length = lineReclen line := by
  simp [lineRecord]

/-- A record's data bytes are the line's (R40). -/
theorem getD_lineRecord_data {line : Line} {i : Nat} (hi : i < lineReclen line) :
    (lineRecord line).data.getD i 0 = lineData line i := by
  rw [List.getD_eq_getElem _ _ (by rwa [length_lineRecord_data])]
  simp [lineRecord]

section Steps

variable {line : Line} (cap : Byte)

/-- Without the mark nothing else is looked at (R76 step 1, R77). -/
theorem decodeRecordLine_of_no_mark (h : line.head? ≠ some Config.mark) : decodeRecordLine line cap = .notARecord := by
  have hread : readRecord line = .error .notARecord := if_pos (.inr fun h0 => h (head?_eq_mark_iff.mpr h0))
  rw [decodeRecordLine, hread]
  rfl

/-- Behind the mark every failing check gives the same result, whichever fails first (R76 steps 2 to 6). -/
theorem decodeRecordLine_of_failed_check (hmark : line.head? = some Config.mark) (h : ¬checksPass line) :
    decodeRecordLine line cap = .invalidFormat := by
  have hstart : ¬(line.length = 0 ∨ line.getD 0 0 ≠ Config.mark) := by
    rintro (h0 | h0)
    · simp [List.length_eq_zero_iff.mp h0] at hmark
    · exact h0 (head?_eq_mark_iff.mp hmark)
  have hread : readRecord line = .error .invalidFormat := by
    rw [readRecord, if_neg hstart]
    split_ifs with h11 hshort hother hsum
    · rfl
    · rfl
    · rfl
    · rfl
    · exact absurd ⟨Nat.not_lt.mp hshort, or_iff_not_and_not.mpr hother, not_not.mp hsum⟩ h
  rw [decodeRecordLine, hread]
  rfl

/-- A line that passes every check is classified by its fields (R76 step 7). -/
theorem decodeRecordLine_of_checks (hmark : line.head? = some Config.mark) (h : checksPass line) :
    decodeRecordLine line cap = classify cap (lineRecord line) := by
  obtain ⟨hreq, hterm, hsum⟩ := h
  rw [decodeRecordLine, readRecord_of_checks (head?_eq_mark_iff.mp hmark) hreq hterm hsum]
  rfl

/-- A line that passes every check is classified by the rectype that its field spells (R43, R76 step 7). -/
theorem decodeRecordLine_of_rectype (hmark : line.head? = some Config.mark) (h : checksPass line) {k : Nat}
    (hk : rdhex line 7 2 = k) :
    decodeRecordLine line cap = classify cap ⟨BitVec.ofNat 8 k, lineOffset line, (lineRecord line).data⟩ :=
  hk ▸ decodeRecordLine_of_checks cap hmark h

/-- Lines that are read alike are decoded alike. -/
theorem decodeRecordLine_congr {line' : Line} (h : readRecord line = readRecord line') :
    decodeRecordLine line cap = decodeRecordLine line' cap := by
  rw [decodeRecordLine, decodeRecordLine, h]

end Steps

section Rows

variable {cap : Byte} {offset : Addr} {data : List Byte}

/-- A data record over the capacity does not fit (R79). -/
theorem classify_data_of_lt (h : cap.toNat < data.length) : classify cap ⟨0x00, offset, data⟩ = .bufferTooSmall :=
  if_pos h

/-- An end-of-file record has no data (R80). -/
theorem classify_eof_of_data (h : data.length ≠ 0) : classify cap ⟨0x01, offset, data⟩ = .invalidFormat :=
  if_pos h

/-- An end-of-file record's offset is the start address (R80). -/
theorem classify_eof_of_no_data (h : data.length = 0) : classify cap ⟨0x01, offset, data⟩ = .endOfFile offset :=
  if_neg (not_not.mpr h)

/-- What the four address rows share (R81 to R84): a fixed number of data bytes and offset 0, or no record. -/
def addressRow (n : Nat) (accepted : DecodeResult) (offset : Addr) (data : List Byte) : DecodeResult :=
  if data.length ≠ n ∨ offset ≠ 0 then .notARecord else accepted

/-- Another count or offset is no record (R81 to R84). -/
theorem addressRow_of_ne {n : Nat} {accepted : DecodeResult} (h : data.length ≠ n ∨ offset ≠ 0) :
    addressRow n accepted offset data = .notARecord :=
  if_pos h

/-- The right count at offset 0 is the row's own result (R81 to R84). -/
theorem addressRow_of_eq {n : Nat} {accepted : DecodeResult} (h : data.length = n ∧ offset = 0) :
    addressRow n accepted offset data = accepted :=
  if_neg (by simp [h])

/-- The extended segment address row (R81). -/
theorem classify_eq_esaRow : classify cap ⟨0x02, offset, data⟩ = addressRow 2 .ignorable offset data := rfl

/-- The start segment address row (R82). -/
theorem classify_eq_ssaRow : classify cap ⟨0x03, offset, data⟩ = addressRow 4 .ignorable offset data := rfl

/-- The extended linear address row (R83). -/
theorem classify_eq_elaRow : classify cap ⟨0x04, offset, data⟩ =
    addressRow 2 (.extendedLinearAddress (fromBe16 (data.getD 0 0) (data.getD 1 0))) offset data := rfl

/-- The start linear address row (R84). -/
theorem classify_eq_slaRow : classify cap ⟨0x05, offset, data⟩ = addressRow 4 .ignorable offset data := rfl

/-- A rectype of 0x06 or more has no row of its own (R85). -/
theorem classify_of_six_le {r : Record} (h : 6 ≤ r.rectype.toNat) : classify cap r = .invalidFormat := by
  have hne : ∀ t : Byte, t.toNat < 6 → r.rectype ≠ t := fun t ht heq => absurd (heq ▸ h) (Nat.not_le.mpr ht)
  rw [classify, if_neg (hne 0x00 (by decide)), if_neg (hne 0x01 (by decide)), if_neg (hne 0x02 (by decide)),
    if_neg (hne 0x03 (by decide)), if_neg (hne 0x04 (by decide)), if_neg (hne 0x05 (by decide))]
  rfl

end Rows

/-- The sum of step 6 is the sum of the bytes that the character pairs spell (R76). -/
theorem lineSum_eq_sum (line : Line) :
    lineSum line = ((List.range (lineReclen line + 5)).map fun k => rdhex line (1 + 2 * k) 2).sum := by
  rw [lineSum, List.sum_eq_foldl, List.foldl_map]

/-- Settles O35: the mark, then the checks behind it, then the row of the rectype. -/
theorem decodeStepsDecideInOrder : Obligations.DecodeStepsDecideInOrder := by
  intro line cap L n offset rectype t sum d result
  have hsumEq : lineSum line = sum := lineSum_eq_sum line
  refine ⟨decodeRecordLine_of_no_mark cap, fun hmark => ?_⟩
  have rejected : ¬checksPass line → result = .invalidFormat := decodeRecordLine_of_failed_check cap hmark
  refine ⟨fun h11 => rejected (not_checksPass_of_short ?_), fun _ hshort => rejected (not_checksPass_of_short hshort),
    fun hreq => ⟨fun hother => rejected fun ⟨_, hterm, _⟩ => hterm.elim hother.1 hother.2, fun hterm =>
      ⟨fun hne => rejected fun ⟨_, _, hsum⟩ => hne (hsumEq ▸ hsum), fun hsum => ?_⟩⟩⟩
  · exact h11.trans_le (Nat.le_add_right_of_le (by decide))
  have hchecks : checksPass line := ⟨hreq, hterm, hsumEq ▸ hsum⟩
  have row {k : Nat} : rectype = k → result = classify cap ⟨BitVec.ofNat 8 k, offset, (lineRecord line).data⟩ :=
    decodeRecordLine_of_rectype cap hmark hchecks
  have esa (hr : rectype = 0x02) := (row hr).trans classify_eq_esaRow
  have ssa (hr : rectype = 0x03) := (row hr).trans classify_eq_ssaRow
  have ela (hr : rectype = 0x04) := (row hr).trans classify_eq_elaRow
  have sla (hr : rectype = 0x05) := (row hr).trans classify_eq_slaRow
  have hlen : (lineRecord line).data.length = n := length_lineRecord_data line
  have hrectype : (lineRecord line).rectype.toNat = rectype := Nat.mod_eq_of_lt (rdhex_lt line 7 2)
  have value (hn : lineReclen line = 2) : fromBe16 ((lineRecord line).data.getD 0 0) ((lineRecord line).data.getD 1 0) =
      fromBe16 (d 0) (d 1) :=
    congrArg₂ fromBe16 (getD_lineRecord_data (by omega)) (getD_lineRecord_data (by omega))
  exact ⟨fun hr h => (row hr).trans (classify_data_of_lt (hlen ▸ h)), fun hr h => (row hr).trans (classify_data (hlen ▸ h)),
    fun hr h => (row hr).trans (classify_eof_of_data (hlen ▸ h)),
    fun hr h => (row hr).trans (classify_eof_of_no_data (hlen ▸ h)),
    fun hr h => (esa hr).trans (addressRow_of_ne (hlen ▸ h)), fun hr h => (esa hr).trans (addressRow_of_eq (hlen ▸ h)),
    fun hr h => (ssa hr).trans (addressRow_of_ne (hlen ▸ h)), fun hr h => (ssa hr).trans (addressRow_of_eq (hlen ▸ h)),
    fun hr h => (ela hr).trans (addressRow_of_ne (hlen ▸ h)),
    fun hr h => (ela hr).trans ((addressRow_of_eq (hlen ▸ h)).trans (congrArg _ (value h.1))),
    fun hr h => (sla hr).trans (addressRow_of_ne (hlen ▸ h)), fun hr h => (sla hr).trans (addressRow_of_eq (hlen ▸ h)),
    fun hr => (decodeRecordLine_of_checks cap hmark hchecks).trans (classify_of_six_le (hr.trans_eq hrectype.symm))⟩

/-- A record's row answers its classification and writes nothing (R43, R78). -/
theorem exec_recordInstr_of_classify {cap : Byte} {r : Record} {d : DecodeResult} (h : classify cap r = d) (s : State) :
    exec (recordInstr cap r) s = .next (s.respond (decodeResponse d)) := by
  rw [exec_recordInstr, execRecord_eq, h]

/-- Settles O36: the packet is the L packet of DECODE, and its answer is the result's (R47). -/
theorem decodeAnswersItsResult : Obligations.DecodeAnswersItsResult := by
  intro cap line s
  refine ⟨decodePacket_packetL rfl cap, ?_⟩
  rw [show exec (.decode cap line) s = _ from execDecode_eq cap line s]
  cases decodeRecordLine line cap <;> rfl

/-- The extended linear address row gives the address that its two bytes spell, so it answers the two bytes (R83, R47). -/
theorem kindAndPayload_ela (d0 d1 : Byte) : kindAndPayload (.extendedLinearAddress (fromBe16 d0 d1)) = [0x02, d0, d1] := by
  rw [kindAndPayload, toNat_fromBe16, be16_of_bytes]
  rfl

/-- Settles O37: each row is the row of the record of its rectype, and answers that record's classification. -/
theorem recordRowsAnswerTheirClassification : Obligations.RecordRowsAnswerTheirClassification := by
  intro cap rectype offset data s hi lo answers
  have row (t : Byte) {d : DecodeResult} (h : classify cap ⟨t, offset, data⟩ = d) :
      answers (recordInstr cap ⟨t, offset, data⟩) (decodeResponse d) := exec_recordInstr_of_classify h s
  refine ⟨fun h => row 0x00 (classify_data_of_lt h), fun h => row 0x00 (classify_data h),
    fun h => row 0x01 (classify_eof_of_data (mt List.length_eq_zero_iff.mp h)),
    fun h => row 0x01 (classify_eof_of_no_data (List.length_eq_zero_iff.mpr h)),
    fun h => row 0x02 (classify_eq_esaRow.trans (addressRow_of_ne h)),
    fun h => row 0x02 (classify_eq_esaRow.trans (addressRow_of_eq h)),
    fun h => row 0x03 (classify_eq_ssaRow.trans (addressRow_of_ne h)),
    fun h => row 0x03 (classify_eq_ssaRow.trans (addressRow_of_eq h)),
    fun h => row 0x04 (classify_eq_elaRow.trans (addressRow_of_ne h)),
    fun d0 d1 hdata h => ?_,
    fun h => row 0x05 (classify_eq_slaRow.trans (addressRow_of_ne h)),
    fun h => row 0x05 (classify_eq_slaRow.trans (addressRow_of_eq h)), rfl⟩
  have hela := row 0x04 (classify_eq_elaRow.trans (addressRow_of_eq ⟨hdata ▸ rfl, h⟩))
  rw [decodeResponse_eq_cons, kindAndPayload_ela] at hela
  subst hdata
  exact hela

/-- A line that decodes to a row is the line of a record that selects it (R43). -/
theorem decodeLine_eq_ok {cap : Byte} {line : Line} {i : Instr} (h : decodeLine cap line = .ok i) :
    ∃ r, readRecord line = .ok r ∧ recordInstr cap r = i := by
  rw [decodeLine] at h
  split at h
  · cases h
  · next r hr => exact ⟨r, hr, Except.ok.inj h⟩

/-- DECODE of a record runs it (R76 step 7). -/
theorem execDecode_of_record {cap : Byte} {line : Line} {r : Record} (h : readRecord line = .ok r) (s : State) :
    execDecode cap line s = execRecord cap r s := by
  rw [execDecode, h]

/-- Settles O38: the record that the line carries selects the row, and DECODE runs the same record. -/
theorem decodeRunsTheRowOfItsRecord : Obligations.DecodeRunsTheRowOfItsRecord := by
  intro cap line i s h
  obtain ⟨r, hr, rfl⟩ := decodeLine_eq_ok h
  exact (execDecode_of_record hr s).trans (exec_recordInstr cap r s).symm

/-! Which characters of a line the result depends on. -/

section ReplacedCharacter

variable (line : Line) (c : Byte) {i j : Nat}

/-- A replacement leaves every other position as it was. -/
theorem getD_set_of_ne (h : i ≠ j) : (line.set i c).getD j 0 = line.getD j 0 := by
  simp [List.getD_eq_getElem?_getD, List.getElem?_set_ne h]

/-- Inside the line the replaced position holds the new character. -/
theorem getD_set_self (h : i < line.length) : (line.set i c).getD i 0 = c := by
  simp [List.getD_eq_getElem?_getD, h]

variable {line c}

/-- A character replaced by one of its own value leaves every value as it was (R88). -/
theorem hexval_getD_set (h : hexval c = hexval (line.getD i 0)) (j : Nat) :
    hexval ((line.set i c).getD j 0) = hexval (line.getD j 0) := by
  by_cases hij : i = j
  · subst hij
    by_cases hi : i < line.length
    · rw [getD_set_self line c hi, h]
    · rw [List.set_eq_of_length_le (Nat.not_lt.mp hi)]
  · rw [getD_set_of_ne line c hij]

variable (line c)

/-- A field does not see a character replaced outside it (R56). -/
theorem rdhex_set_of_outside {k : Nat} (h : i < j ∨ j + k ≤ i) : rdhex (line.set i c) j k = rdhex line j k :=
  rdhex_congr _ _ j k fun m hm => by rw [getD_set_of_ne line c (by omega)]

/-- The reclen field does not see what is behind it (R40). -/
theorem lineReclen_set (h : 3 ≤ i) : lineReclen (line.set i c) = lineReclen line :=
  rdhex_set_of_outside line c (.inr h)

/-- A character replaced behind the first one leaves the first as it was (R76 step 1). -/
theorem head?_set (h : 1 ≤ i) : (line.set i c).head? = line.head? := by
  rw [List.head?_eq_getElem?, List.getElem?_set_ne (by omega), List.head?_eq_getElem?]

/-- The sum does not see the terminator nor what is behind it (R76 step 6). -/
theorem lineSum_set (h : 11 + 2 * lineReclen line ≤ i) : lineSum (line.set i c) = lineSum line := by
  rw [lineSum, lineSum, lineReclen_set line c (by omega)]
  exact foldl_rdhex_congr _ _ _ fun k hk => rdhex_set_of_outside line c (.inr (by omega))

/-- No field sees the terminator nor what is behind it (R40). -/
theorem lineRecord_set (h : 11 + 2 * lineReclen line ≤ i) : lineRecord (line.set i c) = lineRecord line := by
  have hdata : ∀ k ∈ List.range (lineReclen line), lineData (line.set i c) k = lineData line k := fun k hk => by
    rw [List.mem_range] at hk
    rw [lineData, rdhex_set_of_outside line c (.inr (by omega)), lineData]
  rw [lineRecord, lineReclen_set line c (by omega), List.map_congr_left hdata, lineRectype, lineOffset,
    rdhex_set_of_outside line c (.inr (by omega)), rdhex_set_of_outside line c (.inr (by omega))]
  rfl

/-- With a character put at the terminator's position the checks ask for LF or CR there and for the sum (R76, R87). -/
theorem checksPass_set_terminator (h : 12 + 2 * lineReclen line ≤ line.length) :
    checksPass (line.set (11 + 2 * lineReclen line) c) ↔ (c = Config.lf ∨ c = Config.cr) ∧ lineSum line % 256 = 0 := by
  rw [checksPass, lineReclen_set line c (by omega), List.length_set, getD_set_self line c (by omega), lineSum_set line c le_rfl]
  exact and_iff_right h

end ReplacedCharacter

/-- Settles O41: reading sees the values of the field characters alone, and the replacement keeps each of them. -/
theorem fieldCharactersCountByTheirHexValue : Obligations.FieldCharactersCountByTheirHexValue := by
  intro line cap c i hpos hle hc
  change i ≤ 10 + 2 * lineReclen line at hle
  have hmark : line.getD 0 0 = (line.set i c).getD 0 0 := (getD_set_of_ne line c (by omega)).symm
  have hterm : line.getD (11 + 2 * lineReclen line) 0 = (line.set i c).getD (11 + 2 * lineReclen line) 0 :=
    (getD_set_of_ne line c (by omega)).symm
  exact (decodeRecordLine_congr cap (readRecord_congr line (line.set i c) hmark (by rw [List.length_set])
    (by rw [List.length_set]) (by rw [List.length_set]) hterm fun j _ _ => (hexval_getD_set hc j).symm)).symm

/-- Lines that agree up to the terminator and on the three length tests are read alike (R86). -/
theorem readRecord_of_agreement {line line' : Line}
    (hagree : ∀ j ≤ 11 + 2 * lineReclen line, line.getD j 0 = line'.getD j 0)
    (h0 : line.length = 0 ↔ line'.length = 0) (h11 : line.length < 11 ↔ line'.length < 11)
    (hreq : line.length < 12 + 2 * lineReclen line ↔ line'.length < 12 + 2 * lineReclen line) :
    readRecord line = readRecord line' :=
  readRecord_congr line line' (hagree 0 (Nat.zero_le _)) h0 h11 hreq (hagree _ le_rfl)
    fun j _ hj => congrArg hexval (hagree j (by omega))

/-- A line cut off behind a position holds the same character there (R86). -/
theorem getD_take {line : Line} {n j : Nat} (h : j < n) : (line.take n).getD j 0 = line.getD j 0 := by
  rw [List.getD_eq_getElem?_getD, List.getElem?_take_of_lt h, List.getD_eq_getElem?_getD]

/-- Settles O39: the window ends at position 521, for reclen is at most 255. -/
theorem decodeReadsOnlyTheLineWindow : Obligations.DecodeReadsOnlyTheLineWindow := by
  refine ⟨fun line line' cap hagree h0 h11 hreq =>
    decodeRecordLine_congr cap (readRecord_of_agreement hagree h0 h11 hreq), fun line cap => ?_⟩
  have hn := lineReclen_lt line
  refine decodeRecordLine_congr cap (readRecord_of_agreement (fun j hj => (getD_take (by omega)).symm) ?_ ?_ ?_)
  all_goals
    rw [List.length_take]
    omega

/-- LF and CR in the terminator's place give one result (R87). -/
theorem decodeRecordLine_set_terminator {line : Line} (cap : Byte) {c : Byte} (hc : c = Config.lf ∨ c = Config.cr)
    (hreq : 12 + 2 * lineReclen line ≤ line.length) :
    decodeRecordLine (line.set (11 + 2 * lineReclen line) c) cap =
      if line.head? ≠ some Config.mark then .notARecord
      else if lineSum line % 256 ≠ 0 then .invalidFormat else classify cap (lineRecord line) := by
  have hhead : (line.set (11 + 2 * lineReclen line) c).head? = line.head? := head?_set line c (by omega)
  have hchecks := checksPass_set_terminator line c hreq
  split_ifs with hmark hsum
  · exact decodeRecordLine_of_no_mark cap (hhead ▸ hmark)
  · exact decodeRecordLine_of_failed_check cap (hhead.trans (not_not.mp hmark)) fun h => hsum (hchecks.mp h).2
  · rw [decodeRecordLine_of_checks cap (hhead.trans (not_not.mp hmark)) (hchecks.mpr ⟨hc, not_not.mp hsum⟩),
      lineRecord_set line c le_rfl]

/-- What comes after the terminator is not read (R87). -/
theorem readRecord_take_append {line : Line} (hreq : 12 + 2 * lineReclen line ≤ line.length) (after : Line) :
    readRecord (line.take (12 + 2 * lineReclen line) ++ after) = readRecord line := by
  have hlen : (line.take (12 + 2 * lineReclen line)).length = 12 + 2 * lineReclen line := List.length_take_of_le hreq
  refine (readRecord_of_agreement (fun j hj => ?_) ?_ ?_ ?_).symm
  · rw [List.getD_append _ _ _ _ (by omega), getD_take (by omega)]
  all_goals
    rw [List.length_append, hlen]
    omega

/-- Settles O40: the checks ask for either terminator, and reading ends with it. -/
theorem terminatorsAndTrailingCharacters : Obligations.TerminatorsAndTrailingCharacters := by
  intro line cap n
  refine ⟨fun hreq => ⟨?_, fun c hlf hcr hmark => ?_, fun after => ?_⟩, fun hmark hlen => ?_⟩
  · exact (decodeRecordLine_set_terminator cap (.inl rfl) hreq).trans
      (decodeRecordLine_set_terminator cap (.inr rfl) hreq).symm
  · exact decodeRecordLine_of_failed_check cap ((head?_set line c (by omega)).trans hmark) fun h =>
      ((checksPass_set_terminator line c hreq).mp h).1.elim hlf hcr
  · exact decodeRecordLine_congr cap (readRecord_take_append hreq after)
  · exact decodeRecordLine_of_failed_check cap hmark
      (not_checksPass_of_short (hlen.trans_lt (Nat.add_lt_add_right (by decide : 11 < 12) _)))

/-! One changed digit (R68, R89). -/

/-- Characters of equal count spell one number exactly when their values agree (R56). -/
theorem rdhex_eq_iff (s t : List Byte) (i k : Nat) :
    rdhex s i k = rdhex t i k ↔ ∀ j < k, hexval (s.getD (i + j) 0) = hexval (t.getD (i + j) 0) := by
  refine ⟨fun h => ?_, rdhex_congr s t i k⟩
  induction k with
  | zero => exact fun j hj => absurd hj (Nat.not_lt_zero j)
  | succ k ih =>
    have hs := (hexval (s.getD (i + k) 0)).isLt
    have ht := (hexval (t.getD (i + k) 0)).isLt
    rw [rdhex_succ, rdhex_succ] at h
    intro j hj
    obtain hjk | rfl := Nat.lt_succ_iff_lt_or_eq.mp hj
    · exact ih (by omega) j hjk
    · exact BitVec.eq_of_toNat_eq (by omega)

/-- A digit of another value changes every field that it is in (R56). -/
theorem rdhex_set_ne {line : Line} {c : Byte} {i j k : Nat} (hi : i < line.length) (hc : hexval c ≠ hexval (line.getD i 0))
    (hj : j ≤ i) (hk : i < j + k) : rdhex (line.set i c) j k ≠ rdhex line j k := by
  intro h
  have hat := (rdhex_eq_iff _ _ j k).mp h (i - j) (by omega)
  rw [Nat.add_sub_cancel' hj, getD_set_self line c hi] at hat
  exact hc hat

/-- The bytes that step 6 sums, from reclen to the checksum (R76). -/
def lineBytes (line : Line) : List Byte :=
  (List.range (lineReclen line + 5)).map fun k => BitVec.ofNat 8 (rdhex line (1 + 2 * k) 2)

/-- Step 6 sums five bytes besides the data (R76). -/
theorem length_lineBytes (line : Line) : (lineBytes line).length = lineReclen line + 5 := by
  simp [lineBytes]

/-- Byte `k` of the sum is the pair of characters at position 1 + 2k (R76). -/
theorem getElem_lineBytes {line : Line} {k : Nat} (hk : k < (lineBytes line).length) :
    (lineBytes line)[k] = BitVec.ofNat 8 (rdhex line (1 + 2 * k) 2) := by
  simp [lineBytes]

/-- Two characters fit in a byte (R56). -/
theorem toNat_ofNat_rdhex_two (line : Line) (i : Nat) : (BitVec.ofNat 8 (rdhex line i 2)).toNat = rdhex line i 2 :=
  Nat.mod_eq_of_lt (rdhex_lt line i 2)

/-- The sum of step 6 is the sum of its bytes (R63, R76). -/
theorem lineSum_eq_byteSum (line : Line) : lineSum line = byteSum (lineBytes line) :=
  foldl_range_eq_byteSum (length_lineBytes line) fun k hk => by
    rw [← length_lineBytes] at hk
    rw [List.getD_eq_getElem _ _ hk, getElem_lineBytes, toNat_ofNat_rdhex_two]

/-- One byte replaced by another changes the sum mod 256 (R68). -/
theorem byteSum_mod_ne_of_set {bs : List Byte} {k : Nat} {b : Byte} (hk : k < bs.length) (hb : b ≠ bs[k]) :
    byteSum (bs.set k b) % 256 ≠ byteSum bs % 256 := by
  have hset : ∀ x, bs.set k x = bs.take k ++ [x] ++ bs.drop (k + 1) := fun x => by
    rw [List.set_eq_take_append_cons_drop, if_pos hk, List.append_assoc]
    rfl
  have h := byteSum_mod_ne_of_change (bs.take k) (bs.drop (k + 1)) hb
  rwa [← hset, ← hset, List.set_getElem_self hk] at h

/-- A digit replaced in byte `k` behind the reclen field replaces that byte and no other (R40). -/
theorem lineBytes_set {line : Line} (c : Byte) {i k : Nat} (h3 : 3 ≤ i) (hk : 1 + 2 * k ≤ i) (hk' : i ≤ 2 + 2 * k) :
    lineBytes (line.set i c) = (lineBytes line).set k (BitVec.ofNat 8 (rdhex (line.set i c) (1 + 2 * k) 2)) := by
  refine List.ext_getElem ?_ fun m hm hm' => ?_
  · rw [List.length_set, length_lineBytes, length_lineBytes, lineReclen_set line c h3]
  · rw [List.getElem_set, getElem_lineBytes, getElem_lineBytes]
    split_ifs with hkm
    · rw [hkm]
    · rw [rdhex_set_of_outside line c (by omega)]

/-- A digit of another value behind the reclen field changes the sum mod 256 (R68, R89). -/
theorem lineSum_set_mod_ne {line : Line} {c : Byte} {i : Nat} (h3 : 3 ≤ i) (hle : i ≤ 10 + 2 * lineReclen line)
    (hi : i < line.length) (hc : hexval c ≠ hexval (line.getD i 0)) : lineSum (line.set i c) % 256 ≠ lineSum line % 256 := by
  obtain ⟨k, hk, hk'⟩ : ∃ k, 1 + 2 * k ≤ i ∧ i ≤ 2 + 2 * k := ⟨(i - 1) / 2, by omega, by omega⟩
  have hlt : k < (lineBytes line).length := by
    rw [length_lineBytes]
    omega
  rw [lineSum_eq_byteSum, lineSum_eq_byteSum, lineBytes_set c h3 hk hk']
  refine byteSum_mod_ne_of_set hlt fun heq => rdhex_set_ne (k := 2) hi hc hk (by omega) ?_
  rw [getElem_lineBytes] at heq
  simpa only [toNat_ofNat_rdhex_two] using congrArg BitVec.toNat heq

/-- A digit's character ends no record (R55, R76 step 5). -/
theorem hexchr_ne_terminator (n : BitVec 4) : hexchr n ≠ Config.lf ∧ hexchr n ≠ Config.cr := by
  revert n
  decide

/-- A line whose reclen field was changed is too short for the field, or holds a digit where its terminator should be (R89). -/
theorem not_checksPass_of_changed_reclen {h0 h1 h2 h3 c : Byte} {payload : List Byte} {i : Nat} (hi : i < 3)
    (hne : lineReclen ((encline [h0, h1, h2, h3] payload).set i c) ≠ payload.length) :
    ¬checksPass ((encline [h0, h1, h2, h3] payload).set i c) := by
  generalize hm : lineReclen ((encline [h0, h1, h2, h3] payload).set i c) = m at hne
  rintro ⟨hreq, hterm, -⟩
  rw [hm, List.length_set, length_encline_four] at hreq
  obtain ⟨n, hn⟩ := exists_hexchr_getD_encline [h0, h1, h2, h3] payload (i := 10 + 2 * m)
    (by simp only [List.length_cons, List.length_nil]; omega)
  rw [hm, getD_set_of_ne _ c (by omega), show 11 + 2 * m = 10 + 2 * m + 1 by omega, hn] at hterm
  exact hterm.elim (hexchr_ne_terminator n).1 (hexchr_ne_terminator n).2

/-- Settles O42: in the reclen field the digit moves the terminator's place, behind it the digit changes the sum. -/
theorem oneChangedDigitIsRejected : Obligations.OneChangedDigitIsRejected := by
  intro h1 h2 h3 c cap payload i hlt hpos hle _ line
  have hcount : (BitVec.ofNat 8 payload.length).toNat = payload.length := Nat.mod_eq_of_lt hlt
  have hreclen : lineReclen line = payload.length := lineReclen_encline.trans hcount
  have hi : i < line.length := by
    rw [length_encline_four]
    omega
  have hmark : (line.set i c).head? = some Config.mark := head?_set line c hpos
  refine ⟨fun hc => decodeRecordLine_of_failed_check cap hmark ?_,
    fieldCharactersCountByTheirHexValue line cap c i hpos (hle.trans_eq (congrArg (10 + 2 * ·) hreclen.symm))⟩
  by_cases hfield : i < 3
  · exact not_checksPass_of_changed_reclen hfield fun h => rdhex_set_ne hi hc hpos hfield (h.trans hreclen.symm)
  · rintro ⟨-, -, hsum⟩
    exact lineSum_set_mod_ne (Nat.not_lt.mp hfield) (by omega) hi hc (hsum.trans (lineSum_encline hcount).symm)

end Sys2Proof.Machine

/-! The rule of each range tracker command, said once, and its packet (44_range_tracker.md R91 to R96). -/

namespace Sys2Proof.Machine

/-- The tracker at the start of a run (R91): no data record accepted, no warning counted. -/
def State.startRun (s : State) : State :=
  { s with startAddr := Config.startReset, endAddr := 0, warn := 0, img := Memory.clear }

/-- TRKINIT completes from every state (R91). -/
theorem exec_trkinit (s : State) : exec .trkinit s = .next (s.startRun.respond [statusOk]) := rfl

/-- Starting a run that has just started leaves it as it is, the answers given included (R91). -/
theorem startRun_respond_startRun (s : State) (r : Packet) : (s.startRun.respond r).startRun = s.startRun.respond r := rfl

/-- The state after reset is the start of a run (R91, R120). -/
theorem startRun_reset : State.reset.startRun = State.reset := rfl

/-- Settles O43: the state TRKINIT leaves and the reset state are both starts of a run, which a second start keeps. -/
theorem trkinitStartsARun : Obligations.TrkinitStartsARun := by
  refine ⟨decodePacket_encode (i := .trkinit) rfl rfl, fun s => ?_, ?_⟩
  · refine ⟨_, exec_trkinit s, rfl, rfl, rfl, Memory.read_clear, rfl, rfl, rfl, rfl, ?_⟩
    rw [exec_trkinit, startRun_respond_startRun]
    rfl
  · rw [exec_trkinit, startRun_reset]
    rfl

/-- A TRKDATA that ends past the image faults and writes nothing (R92). -/
theorem exec_trkdata_overrun (s : State) {offset : Addr} {bytes : List Byte} (hover : 65536 < offset.toNat + bytes.length) :
    exec (.trkdata offset bytes) s = .next (takeFault .imageOverrun s) :=
  if_pos hover

/-- The byte a copy puts at its position `i` (R32). -/
theorem Memory.read_writeBytes_inside {m : Memory} (h : m.wf = true) {a : Nat} {bytes : List Byte}
    (hfit : a + bytes.length ≤ Config.imgSize) {i : Nat} (hi : i < bytes.length) :
    (m.writeBytes a bytes).read (a + i) = bytes.getD i 0 := by
  rw [Memory.read_writeBytes bytes m h a hfit, if_pos (by omega), Nat.add_sub_cancel_left]

/-- A copy leaves every byte it does not cover (R32). -/
theorem Memory.read_writeBytes_outside {m : Memory} (h : m.wf = true) {a : Nat} {bytes : List Byte}
    (hfit : a + bytes.length ≤ Config.imgSize) {x : Nat} (hx : x < a ∨ a + bytes.length ≤ x) :
    (m.writeBytes a bytes).read x = m.read x := by
  rw [Memory.read_writeBytes bytes m h a hfit, if_neg (by omega)]

/-- Settles O44: inside the image the record is stored, past it the fault comes before any write. -/
theorem trkdataCopiesAndWidens : Obligations.TrkdataCopiesAndWidens := by
  intro offset bytes s hcan
  refine ⟨fun hlen => decodePacket_encode (i := .trkdata offset bytes) (decide_eq_true hlen) rfl, fun hfit => ?_,
    exec_trkdata_overrun s⟩
  exact ⟨_, exec_trkdata s hfit, fun i => Memory.read_writeBytes_inside hcan hfit,
    fun a => Memory.read_writeBytes_outside hcan hfit, toNat_lowerStart .., toNat_raiseEnd hfit, rfl, rfl, rfl, rfl, rfl⟩

/-- TRKWARN completes from every state (R93). -/
theorem exec_trkwarn (s : State) :
    exec .trkwarn s = .next (({ s with warn := countWarning s.warn }).respond [statusOk, warnAction s.warn]) := rfl

/-- The count goes up by one until it saturates (R19). -/
@[simp] theorem toNat_countWarning (warn : BitVec 32) : (countWarning warn).toNat = min (warn.toNat + 1) 0xFFFFFFFF := by
  simp only [countWarning, Config.warnMax, BitVec.toNat_ofNat]
  omega

/-- The action from a count below `WARN_CAP` is DIAG (R93). -/
theorem warnAction_of_lt {warn : BitVec 32} (h : warn.toNat < 10) : warnAction warn = 0x01 := if_pos h

/-- The action from a count at `WARN_CAP` is NOTICE (R93). -/
theorem warnAction_of_eq {warn : BitVec 32} (h : warn.toNat = 10) : warnAction warn = 0x02 :=
  (if_neg h.not_lt).trans (if_pos h)

/-- The action from a count above `WARN_CAP` is NONE (R93). -/
theorem warnAction_of_gt {warn : BitVec 32} (h : 10 < warn.toNat) : warnAction warn = 0x00 :=
  (if_neg h.not_gt).trans (if_neg h.ne')

/-- Settles O45: TRKWARN's rule, the action read off the count before it. -/
theorem trkwarnCountsAndPicksItsAction : Obligations.TrkwarnCountsAndPicksItsAction := by
  refine ⟨decodePacket_encode (i := .trkwarn) rfl rfl, fun s => ?_⟩
  have counts {action : Byte} (h : warnAction s.warn = action) :
      exec .trkwarn s = .next (({ s with warn := countWarning s.warn }).respond [0x00, action]) := h ▸ exec_trkwarn s
  exact ⟨fun h => counts (warnAction_of_lt h), fun h => counts (warnAction_of_eq h), fun h => counts (warnAction_of_gt h)⟩

/-- The slice's length is `END - START`, and 0 in the degenerate case (R94). -/
theorem sliceLength_eq {s : State} {len : Nat}
    (h : (s.startAddr.toNat ≤ s.endAddr.toNat ∧ len = s.endAddr.toNat - s.startAddr.toNat) ∨
      (s.endAddr.toNat < s.startAddr.toNat ∧ len = 0)) : sliceLength s = len := by
  obtain ⟨hle, rfl⟩ | ⟨hlt, rfl⟩ := h
  · exact if_pos hle
  · exact if_neg (Nat.not_le.mpr hlt)

/-- Settles O47: TRKSLICE answers `sliceResponse` and writes nothing. -/
theorem trksliceAnswersTheSlice : Obligations.TrksliceAnswersTheSlice := by
  refine ⟨decodePacket_encode (i := .trkslice) rfl rfl, fun s len hend hlen => ?_⟩
  rw [exec_trkslice hend, sliceResponse, sliceLength_eq hlen]
  rfl

/-- IMGRD completes from every state and answers the byte at its address (R95). -/
theorem exec_imgrd (a : Addr) (s : State) : exec (.imgrd a) s = .next (s.respond [statusOk, s.img.read a.toNat]) := rfl

/-- RDSTAT completes from every state and answers the registers (R96). -/
theorem exec_rdstat (s : State) : exec .rdstat s =
    .next (s.respond ([statusOk, s.ck] ++ be16 s.startAddr.toNat ++ be24 s.endAddr.toNat ++ be32 s.warn.toNat)) := rfl

/-- Settles O48: both only answer. -/
theorem imgrdAndRdstatAnswerFromState : Obligations.ImgrdAndRdstatAnswerFromState := fun a s =>
  ⟨⟨decodePacket_encode (i := .imgrd a) rfl rfl, exec_imgrd a s⟩, ⟨decodePacket_encode (i := .rdstat) rfl rfl, exec_rdstat s⟩⟩

end Sys2Proof.Machine

/-! Which commands read `WARN`, and the warnings of a run (44_range_tracker.md R93). -/

namespace Sys2Proof.Machine

/-- A command that neither reads nor clears `WARN` answers and writes the other elements alike for every value of it, and passes it
through (R93). -/
theorem exec_with_warn {i : Instr} (s : State) (w : BitVec 32) (hwarn : i ≠ .trkwarn) (hstat : i ≠ .rdstat) (hinit : i ≠ .trkinit) :
    exec i { s with warn := w } = andThen (exec i s) fun t => .next { t with warn := w } := by
  cases i with
  | trkwarn => exact absurd rfl hwarn
  | rdstat => exact absurd rfl hstat
  | trkinit => exact absurd rfl hinit
  | hexchr b => simp only [exec, execHexchr, andThen_ite]; rfl
  | encdat o b => simp only [exec, execEncdat, andThen_ite]; rfl
  | trkdata o b => simp only [exec, execTrkdata, andThen_ite]; rfl
  | trkslice => simp only [exec, execTrkslice, andThen_ite]; rfl
  | decode cap line => simp only [exec, execDecode_eq]; rfl
  | _ => rfl

/-- Settles O19: TRKINIT overwrites `WARN`, and every other command that is not excepted passes it through. -/
theorem noOtherCommandReadsWarn : Obligations.NoOtherCommandReadsWarn := by
  intro i s t w hwarn hstat h
  by_cases hinit : i = .trkinit
  · subst hinit
    cases h
    exact ⟨_, exec_trkinit _, rfl, rfl, rfl, rfl, rfl, rfl, rfl, .inl rfl⟩
  · have hw := exec_with_warn s w hwarn hstat hinit
    rw [h] at hw
    exact ⟨_, hw, rfl, rfl, rfl, rfl, rfl, rfl, rfl, .inr rfl⟩

/-- Sent to a running block, TRKINIT completes (R91). -/
theorem cmd_trkinit {s : State} (hend : s.endInImage) (hrun : s.running) :
    cmd .trkinit s = .next ([statusOk], s.startRun.respond [statusOk]) := by
  rw [cmd_eq_next hend hrun rfl (exec_trkinit s), State.lastResponse_respond]

/-- Sent to a running block, `k` TRKWARNs complete and count `k` warnings, saturated, and what follows starts where they end (R93). -/
theorem cmdAll_replicate_trkwarn (k : Nat) (last : Packet) {s : State} (hend : s.endInImage) (hrun : s.running) :
    ∃ (r : Packet) (t : State), t.endInImage ∧ t.running ∧ t.warn.toNat = min (s.warn.toNat + k) 0xFFFFFFFF ∧
      ∀ rest, cmdAll last (List.replicate k .trkwarn ++ rest) s = cmdAll r rest t := by
  induction k generalizing last s with
  | zero => exact ⟨last, s, hend, hrun, by omega, fun _ => rfl⟩
  | succ k ih =>
    obtain ⟨r, t, htend, htrun, hcount, hrest⟩ := ih [statusOk, warnAction s.warn]
      (s := ({ s with warn := countWarning s.warn }).respond [statusOk, warnAction s.warn]) hend hrun
    rw [State.respond_warn, toNat_countWarning] at hcount
    refine ⟨r, t, htend, htrun, by omega, fun rest => ?_⟩
    rw [List.replicate_succ, List.cons_append, cmdAll_cons_of_completed (cmd_trkwarn hend hrun) rfl, hrest]

/-- The action after `k` warnings of a run does not depend on whether the count has saturated, `WARN_CAP` being below that (R93). -/
theorem warnAction_of_saturated {warn : BitVec 32} {k : Nat} (h : warn.toNat = min k 0xFFFFFFFF) :
    warnAction warn = if k < 10 then 0x01 else if k = 10 then 0x02 else 0x00 := by
  obtain hlt | heq | hgt := Nat.lt_trichotomy k 10
  · rw [warnAction_of_lt (by omega), if_pos hlt]
  · rw [warnAction_of_eq (by omega), if_neg (by omega), if_pos heq]
  · rw [warnAction_of_gt (by omega), if_neg (by omega), if_neg (by omega)]

/-- Settles O46: `k` warnings after TRKINIT leave the count at `k`, saturated, which decides the answer to one more. -/
theorem repeatedWarningsAreCapped : Obligations.RepeatedWarningsAreCapped := by
  intro k s hend hrun
  obtain ⟨r, t, htend, htrun, hcount, hrest⟩ :=
    cmdAll_replicate_trkwarn k [statusOk] (s := s.startRun.respond [statusOk]) (Nat.zero_le _) hrun
  rw [show (s.startRun.respond [statusOk]).warn.toNat + k = k from Nat.zero_add k] at hcount
  refine ⟨({ t with warn := countWarning t.warn }).respond [statusOk, warnAction t.warn], ?_, ?_⟩
  · rw [List.singleton_append, cmdAll_cons_of_completed (cmd_trkinit hend hrun) rfl, List.replicate_succ', hrest,
      cmdAll_cons_of_completed (cmd_trkwarn htend htrun) rfl, cmdAll, warnAction_of_saturated hcount]
    rfl
  · rw [State.respond_warn, toNat_countWarning, hcount]
    omega

end Sys2Proof.Machine

/-! The slice of a run of data records (44_range_tracker.md R97). -/

namespace Sys2Proof.Machine

/-- After a data record `START` is at most `END`, for the record lies between them (R22). -/
theorem State.Tracks.start_le_end {s : State} {records : List (Addr × List Byte)} (h : s.Tracks records) (hsome : records ≠ []) :
    s.startAddr.toNat ≤ s.endAddr.toNat := by
  obtain ⟨r, hr⟩ := List.exists_mem_of_ne_nil records hsome
  have hstart := h.start_le r hr
  have hend := h.le_end r hr
  omega

/-- The bytes of the image are those of the last records that cover their addresses (R97). -/
theorem State.Tracks.readBytes_eq {s : State} {records : List (Addr × List Byte)} (h : s.Tracks records) (a n : Nat) :
    s.img.readBytes a n = (List.range n).map fun i => lastCovering records (a + i) := by
  simp only [Memory.readBytes, h.image]

/-- Settles O50: the run ends in a state that tracks the accepted records, and TRKSLICE answers its slice. -/
theorem runOfDataRecordsLeavesItsSlice : Obligations.RunOfDataRecordsLeavesItsSlice := by
  intro cmds s hend hrun hcmds hsome
  obtain ⟨t, -, htracks, hall⟩ := cmdAll_run hend hrun hcmds
  refine ⟨t.startAddr.toNat, t.endAddr.toNat, t.respond (sliceResponse t),
    htracks.start_attained.resolve_left fun h => hsome h.1, htracks.start_le,
    htracks.end_attained.resolve_left fun h => hsome h.1, htracks.le_end, ?_⟩
  rw [hall, sliceResponse, sliceLength_eq (.inl ⟨htracks.start_le_end hsome, rfl⟩), htracks.readBytes_eq]
  rfl

end Sys2Proof.Machine

/-! The converter's chunk schedule (45_host_procedures.md R101; 92_eei_decisions.md D19). -/

namespace Sys2Proof.Machine

section Chunks

variable {C : Nat}

/-- No bytes are no chunks, whatever the fuel. -/
theorem chunksWithin_nil (fuel : Nat) : chunksWithin fuel C [] = [] := by
  cases fuel <;> rfl

/-- Bytes left are one more chunk, of as many of them as fit. -/
theorem chunksWithin_succ (fuel : Nat) {B : List Byte} (hsome : B ≠ []) :
    chunksWithin (fuel + 1) C B = B.take C :: chunksWithin fuel C (B.drop C) := by
  cases B with
  | nil => exact absurd rfl hsome
  | cons b rest => rfl

/-- Fuel for every byte is enough: what holds of no bytes, and of bytes when it holds of those after their first chunk, holds of every
schedule. -/
theorem chunksWithin_induction (hC : 1 ≤ C) {motive : List Byte → List (List Byte) → Prop} (nil : motive [] [])
    (cons : ∀ B chunks, B ≠ [] → motive (B.drop C) chunks → motive B (B.take C :: chunks)) (fuel : Nat) (B : List Byte)
    (hfuel : B.length ≤ fuel) : motive B (chunksWithin fuel C B) := by
  induction fuel generalizing B with
  | zero =>
    obtain rfl := List.length_eq_zero_iff.mp (Nat.le_zero.mp hfuel)
    exact nil
  | succ fuel ih =>
    by_cases hB : B = []
    · rw [hB, chunksWithin_nil]
      exact nil
    · rw [chunksWithin_succ fuel hB]
      exact cons B _ hB (ih _ (by rw [List.length_drop]; omega))

/-- `chunksWithin_induction` for D19's schedule (R101). -/
theorem fullChunks_induction (hC : 1 ≤ C) {motive : List Byte → List (List Byte) → Prop} (nil : motive [] [])
    (cons : ∀ B chunks, B ≠ [] → motive (B.drop C) chunks → motive B (B.take C :: chunks)) (B : List Byte) :
    motive B (fullChunks C B) :=
  chunksWithin_induction hC nil cons B.length B le_rfl

/-- The chunks join to the input (R101). -/
theorem flatten_fullChunks (hC : 1 ≤ C) (B : List Byte) : (fullChunks C B).flatten = B := by
  refine fullChunks_induction hC (motive := fun B chunks => chunks.flatten = B) rfl (fun B chunks _ ih => ?_) B
  rw [List.flatten_cons, ih, List.take_append_drop]

/-- There are `ceil(len(B) / C)` chunks (R103). -/
theorem length_fullChunks (hC : 1 ≤ C) (B : List Byte) : (fullChunks C B).length = (B.length + C - 1) / C := by
  refine fullChunks_induction hC (motive := fun B chunks => chunks.length = (B.length + C - 1) / C) ?_
    (fun B chunks hsome ih => ?_) B
  · exact (Nat.div_eq_of_lt (by simp; omega)).symm
  · have hpos := List.length_pos_iff.mpr hsome
    rw [List.length_cons, ih, List.length_drop, ← Nat.add_div_right _ hC]
    obtain hle | hlt := le_or_gt B.length C
    · rw [Nat.div_eq_of_lt_le (k := 1) (by omega) (by omega), Nat.div_eq_of_lt_le (k := 1) (by omega) (by omega)]
    · congr 1
      omega

/-- Every chunk is a read that R99 allows (R101). -/
theorem length_of_mem_fullChunks (hC : 1 ≤ C) (B : List Byte) : ∀ chunk ∈ fullChunks C B, 1 ≤ chunk.length ∧ chunk.length ≤ C := by
  refine fullChunks_induction hC (motive := fun _ chunks => ∀ chunk ∈ chunks, 1 ≤ chunk.length ∧ chunk.length ≤ C) nofun
    (fun B chunks hsome ih => List.forall_mem_cons.mpr ⟨?_, ih⟩) B
  have hpos := List.length_pos_iff.mpr hsome
  rw [List.length_take]
  omega

/-- A chunk with another after it is full: bytes are left behind it (R101). -/
theorem length_getD_fullChunks (hC : 1 ≤ C) (B : List Byte) :
    ∀ j, j + 1 < (fullChunks C B).length → ((fullChunks C B).getD j []).length = C := by
  refine (fullChunks_induction hC (motive := fun B chunks =>
    (chunks ≠ [] → B ≠ []) ∧ ∀ j, j + 1 < chunks.length → (chunks.getD j []).length = C) ⟨nofun, nofun⟩ ?_ B).2
  rintro B chunks hsome ⟨hrest, ih⟩
  refine ⟨fun _ => hsome, fun j hj => ?_⟩
  rw [List.length_cons, Nat.add_lt_add_iff_right] at hj
  cases j with
  | zero =>
    have hleft := List.length_pos_iff.mpr (hrest (List.length_pos_iff.mp hj))
    rw [List.length_drop] at hleft
    rw [List.getD_cons_zero, List.length_take]
    omega
  | succ j => exact ih j hj

end Chunks

/-- Settles O51: the four facts about the schedule, each by induction along the chunks; the refusal comes before anything else. -/
theorem converterCutsFullChunks : Obligations.ConverterCutsFullChunks :=
  ⟨fun _ B hC => ⟨flatten_fullChunks hC B, length_fullChunks hC B, length_getD_fullChunks hC B, length_of_mem_fullChunks hC B⟩,
    fun _ _ _ _ _ hC => if_pos hC⟩

end Sys2Proof.Machine

/-! The lines the converter writes (45_host_procedures.md R100 to R102). -/

namespace Sys2Proof.Machine

/-- What a command leaves that answers the line of record `r` and writes nothing. -/
def State.answerLine (s : State) (r : Record) : State := s.respond (lineResponse (encodeRecord r))

/-- The command answers the line of record `r` from every state, and its packet decodes to it. -/
structure AnswersLine (i : Instr) (r : Record) : Prop where
  decodes : decodePacket (encode i) = .ok i
  answers : ∀ s : State, exec i s = .next (s.answerLine r)

/-- ENCDAT of 1 to 255 bytes answers its data record's line (R72). -/
theorem answersLine_encdat (offset : Addr) {bytes : List Byte} (hpos : 1 ≤ bytes.length) (hle : bytes.length ≤ 255) :
    AnswersLine (.encdat offset bytes) ⟨0x00, offset, bytes⟩ :=
  ⟨decodePacket_packetWD rfl offset hle, exec_encdat_of_length hpos (Nat.lt_succ_of_le hle) offset⟩

/-- ENCELA answers its record's line (R73). -/
theorem answersLine_encela (ulba : Addr) : AnswersLine (.encela ulba) ⟨0x04, 0, be16 ulba.toNat⟩ :=
  ⟨decodePacket_packetW rfl ulba, exec_encela ulba⟩

/-- ENCEOF answers its record's line (R74). -/
theorem answersLine_enceof (start : Addr) : AnswersLine (.enceof start) ⟨0x01, start, []⟩ :=
  ⟨decodePacket_packetW rfl start, exec_enceof start⟩

section Emit

variable {i : Instr} {r : Record} {k : Sink} {s : State} {after : Sink → State → Host.Outcome Run Fault Refusal}

/-- Emitting a line ends the run in FATAL_IO if the sink does not take it, else goes on (R100). -/
theorem emitLine_of_answersLine (h : AnswersLine i r) (hend : s.endInImage) (hrun : s.running) :
    emitLine i k s after =
      (k.write (encodeRecord r)).elim (.next (fatalRun .fatalIo (s.answerLine r) k [])) (after · (s.answerLine r)) := by
  rw [emitLine, cmd_eq_next hend hrun h.decodes (h.answers s), State.answerLine, State.lastResponse_respond, andThen_next,
    if_pos (by rfl)]
  simp only [responseLine, drop_lineResponse]
  cases k.write (encodeRecord r) <;> rfl

/-- A sink that does not fail takes the line, and the run goes on (R99, R100). -/
theorem emitLine_of_no_failure (written : List Byte) (h : AnswersLine i r) (hend : s.endInImage) (hrun : s.running) :
    emitLine i ⟨written, none⟩ s after = after ⟨written ++ encodeRecord r, none⟩ (s.answerLine r) :=
  emitLine_of_answersLine h hend hrun

/-- A run that emits a line first ends in FATAL_IO there, or is the run that goes on (R100). -/
theorem emitLine_eq_next {q : Run} (h : AnswersLine i r) (hend : s.endInImage) (hrun : s.running)
    (hq : emitLine i k s after = .next q) : q.outcome = .fatalIo ∨ ∃ k', after k' (s.answerLine r) = .next q := by
  rw [emitLine_of_answersLine h hend hrun] at hq
  cases hk : k.write (encodeRecord r) with
  | none =>
    rw [hk] at hq
    cases hq
    exact .inl rfl
  | some k' =>
    rw [hk] at hq
    exact .inr ⟨k', hq⟩

end Emit

/-- The data records of some chunks from an offset on, which wraps (R100, R102). -/
def dataRecords (offset : Addr) : List (List Byte) → List Record
  | [] => []
  | chunk :: chunks => ⟨0x00, offset, chunk⟩ :: dataRecords (BitVec.ofNat 16 (offset.toNat + chunk.length)) chunks

/-- The records of a conversion (R100). -/
def convertedRecords (A : Addr) (chunks : List (List Byte)) : List Record :=
  [⟨0x04, 0, be16 (0 : Addr).toNat⟩] ++ dataRecords A chunks ++ [⟨0x01, 0, []⟩]

/-- The lines of some records, one after the other. -/
def recordLines (records : List Record) : List Byte := (records.map encodeRecord).flatten

@[simp] theorem recordLines_cons (r : Record) (records : List Record) :
    recordLines (r :: records) = encodeRecord r ++ recordLines records := rfl

/-- The offset advances by one chunk and then by others as by all of them (R102). -/
theorem ofNat_advance_advance (A : Addr) (m n : Nat) :
    BitVec.ofNat 16 ((BitVec.ofNat 16 (A.toNat + m)).toNat + n) = BitVec.ofNat 16 (A.toNat + (m + n)) :=
  BitVec.eq_of_toNat_eq (by simp [Nat.add_assoc])

/-- The data record of a chunk has the offset of the bytes before it, modulo 65536 (R102). -/
theorem dataRecords_eq_map (A : Addr) (chunks : List (List Byte)) :
    dataRecords A chunks = (List.range chunks.length).map fun j =>
      ⟨0x00, BitVec.ofNat 16 (A.toNat + (chunks.take j).flatten.length), chunks.getD j []⟩ := by
  induction chunks generalizing A with
  | nil => rfl
  | cons chunk chunks ih =>
    rw [List.length_cons, List.range_succ_eq_map, List.map_cons, List.map_map, dataRecords, ih]
    simp only [ofNat_advance_advance]
    simp [Function.comp_def]

/-- The converter's loop over chunks that R99 allows, into a sink that does not fail (R100). -/
theorem convertLoop_of_no_failure {C : Nat} (hC : C ≤ 255) (chunks : List (List Byte))
    (hchunks : ∀ chunk ∈ chunks, 1 ≤ chunk.length ∧ chunk.length ≤ C) (offset : Addr) (written : List Byte) {s : State}
    (hend : s.endInImage) (hrun : s.running) :
    ∃ responses, convertLoop C offset (chunks.map .bytes) ⟨written, none⟩ s =
      .next ⟨.ok, { s with responses := responses },
        ⟨written ++ recordLines (dataRecords offset chunks ++ [⟨0x01, 0, []⟩]), none⟩, []⟩ := by
  induction chunks generalizing offset written s with
  | nil =>
    refine ⟨(s.answerLine ⟨0x01, 0, []⟩).responses, ?_⟩
    rw [List.map_nil, convertLoop, emitLine_of_no_failure written (answersLine_enceof 0) hend hrun]
    rfl
  | cons chunk chunks ih =>
    obtain ⟨⟨hpos, hle⟩, hchunks⟩ := List.forall_mem_cons.mp hchunks
    obtain ⟨responses, hloop⟩ := ih hchunks (BitVec.ofNat 16 (offset.toNat + chunk.length))
      (written ++ encodeRecord ⟨0x00, offset, chunk⟩) (s := s.answerLine ⟨0x00, offset, chunk⟩) hend hrun
    refine ⟨responses, ?_⟩
    rw [List.map_cons, convertLoop, if_neg (by omega),
      emitLine_of_no_failure written (answersLine_encdat offset hpos (by omega)) hend hrun, hloop, dataRecords, List.cons_append, recordLines_cons, List.append_assoc]
    rfl

/-- A conversion of chunks that R99 allows, into a sink that does not fail (R100). -/
theorem convert_of_no_failure {C : Nat} (hpos : 1 ≤ C) (hC : C ≤ 255) {chunks : List (List Byte)}
    (hchunks : ∀ chunk ∈ chunks, 1 ≤ chunk.length ∧ chunk.length ≤ C) (A : Addr) (written : List Byte) {s : State}
    (hend : s.endInImage) (hrun : s.running) :
    ∃ responses, convert A C (chunks.map .bytes) ⟨written, none⟩ s =
      .next ⟨.ok, { s with responses := responses }, ⟨written ++ recordLines (convertedRecords A chunks), none⟩, []⟩ := by
  obtain ⟨responses, hloop⟩ := convertLoop_of_no_failure hC chunks hchunks A (written ++ encodeRecord ⟨0x04, 0, be16 (0 : Addr).toNat⟩)
    (s := s.answerLine ⟨0x04, 0, be16 (0 : Addr).toNat⟩) hend hrun
  refine ⟨responses, ?_⟩
  rw [convert, if_neg (by simp only [Config.maxReclen]; omega), emitLine_of_no_failure written (answersLine_encela 0) hend hrun]
  refine hloop.trans ?_
  rw [List.append_assoc]
  rfl

/-- A conversion's lines: the address record's, the data records', the end-of-file record's (R100). -/
theorem recordLines_convertedRecords (A : Addr) (chunks : List (List Byte)) :
    recordLines (convertedRecords A chunks) =
      encodeRecord ⟨0x04, 0, be16 (0 : Addr).toNat⟩ ++ recordLines (dataRecords A chunks) ++ encodeRecord ⟨0x01, 0, []⟩ := by
  simp [recordLines, convertedRecords]

/-- A data record's line, its header written out with the offset as a number modulo 65536 (R41). -/
theorem encodeRecord_data (n : Nat) (bytes : List Byte) : encodeRecord ⟨0x00, BitVec.ofNat 16 n, bytes⟩ =
    encline [BitVec.ofNat 8 bytes.length, BitVec.ofNat 8 (n % 65536 / 256), BitVec.ofNat 8 (n % 65536), 0x00] bytes := by
  simp only [encodeRecord, header, BitVec.toNat_ofNat]
  rfl

/-- Settles O52: `convert_of_no_failure`, each record's line with its header written out. -/
theorem converterWritesItsRecords : Obligations.ConverterWritesItsRecords := by
  intro A C chunks written s hend hrun hpos hC hchunks offset dataLine
  obtain ⟨responses, hconvert⟩ := convert_of_no_failure hpos hC hchunks A written hend hrun
  have hdata : (dataRecords A chunks).map encodeRecord = (List.range chunks.length).map dataLine := by
    rw [dataRecords_eq_map, List.map_map]
    exact List.map_congr_left fun j _ => encodeRecord_data ..
  refine ⟨{ s with responses := responses }, ?_, rfl, rfl, rfl, rfl, rfl, rfl, rfl⟩
  rw [hconvert, recordLines_convertedRecords, recordLines, hdata, encodeRecord_ela 0, ← List.append_assoc, ← List.append_assoc]
  rfl

end Sys2Proof.Machine

/-! What one turn of the reconstructor's loop can do, and how a run ends (45_host_procedures.md R104 to R107). -/

namespace Sys2Proof.Machine

/-- The bytes of the slice `[START, END)` (R94). -/
def sliceBytes (s : State) : List Byte := s.img.readBytes s.startAddr.toNat (sliceLength s)

/-- The run goes on behind a line with result `d`: a recoverable error is counted and reported, any other result is not (R93, R104). -/
structure GoesOn (d : DecodeResult) (s t : State) (ds ds' : List Diagnostic) : Prop where
  not_endOfFile : ∀ a, d ≠ .endOfFile a
  endInImage : t.endInImage
  running : t.running
  reports : (decodeErrorClass d = some .recoverableFormat ∧ t.warn = countWarning s.warn ∧
      ds' = ds ++ diagnosticsOf (warnAction s.warn)) ∨
    (decodeErrorClass d ≠ some .recoverableFormat ∧ t.warn = s.warn ∧ ds' = ds)

/-- How a run ends that has emitted `ds` so far: FATAL_BLOCK goes with a block halted by IMAGE_OVERRUN, and a fatal run with one more
diagnostic, for which the sink is as it was (R104, R106, R107). -/
structure Run.EndsFrom (r : Run) (k : Sink) (ds : List Diagnostic) : Prop where
  block : (r.outcome = .fatalBlock ∧ r.block.faultCode = 0xE5) ∨ (r.outcome ≠ .fatalBlock ∧ r.block.running)
  fatal : r.outcome ≠ .ok → r.sink = k ∧ r.diagnostics.count .fatal = ds.count .fatal + 1

section Reconstruct

variable {cap : Byte} {l : Line} {rest reads : List ReadLine} {k : Sink} {ds : List Diagnostic} {s : State} {r : Run}

/-- The end of a reconstruction of a running block: an empty slice is not written, and a sink that does not take the bytes is FATAL_IO
(R104). -/
theorem writeSlice_eq (hend : s.endInImage) (hrun : s.running) :
    writeSlice k ds s = .next (if sliceBytes s = [] then ⟨.ok, s.respond (sliceResponse s), k, ds⟩
      else (k.write (sliceBytes s)).elim (fatalRun .fatalIo (s.respond (sliceResponse s)) k ds)
        fun k' => ⟨.ok, s.respond (sliceResponse s), k', ds⟩) := by
  have hdrop : (sliceResponse s).drop 6 = sliceBytes s := rfl
  rw [writeSlice, cmd_eq_next hend hrun rfl (exec_trkslice hend), State.lastResponse_respond, andThen_next, if_pos (by rfl)]
  simp only [hdrop]
  cases sliceBytes s with
  | nil => rfl
  | cons b bs =>
    rw [if_neg (List.cons_ne_nil b bs)]
    dsimp only
    cases k.write (b :: bs) <;> rfl

/-- A run that ends with its slice ends well and reports nothing more, or in FATAL_IO (R104). -/
theorem writeSlice_eq_next (hend : s.endInImage) (hrun : s.running) (h : writeSlice k ds s = .next r) :
    ∃ t : State, t.running ∧ ((∃ k', r = ⟨.ok, t, k', ds⟩) ∨ r = fatalRun .fatalIo t k ds) := by
  refine ⟨s.respond (sliceResponse s), hrun, ?_⟩
  rw [writeSlice_eq hend hrun] at h
  cases h
  split_ifs
  · exact .inl ⟨k, rfl⟩
  · cases k.write (sliceBytes s) with
    | none => exact .inr rfl
    | some k' => exact .inl ⟨k', rfl⟩

/-- TRKDATA's packet carries up to 255 bytes, so `cmd` of it is its own rule and its response (R44, R98). -/
theorem cmd_trkdata {o : Addr} {b : List Byte} {t : State} (hend : s.endInImage) (hrun : s.running) (hlen : b.length < 256)
    (h : exec (.trkdata o b) s = .next t) : cmd (.trkdata o b) s = .next (t.lastResponse, t) :=
  cmd_eq_next hend hrun (decodePacket_packetWD (op := 0x41) rfl o (Nat.le_of_lt_succ hlen)) h

/-- A data record inside the image is stored, and the run goes on (R92, R104). -/
theorem afterDecode_data {o : Addr} {b : List Byte} (w : BitVec 32) (hend : s.endInImage) (hrun : s.running)
    (hlen : b.length < 256) (hfit : o.toNat + b.length ≤ 65536) :
    afterDecode cap rest k ds w s (.data o b) = reconstructLoop cap rest k ds ((s.storeRecord o b).respond [statusOk]) := by
  rw [afterDecode, cmd_trkdata hend hrun hlen (exec_trkdata s hfit),
    State.lastResponse_respond, andThen_next]
  rfl

/-- A data record past the image ends the run in FATAL_BLOCK (R92, R106). -/
theorem afterDecode_data_overrun {o : Addr} {b : List Byte} (w : BitVec 32) (hend : s.endInImage) (hrun : s.running)
    (hlen : b.length < 256) (hover : 65536 < o.toNat + b.length) :
    afterDecode cap rest k ds w s (.data o b) = .next (fatalRun .fatalBlock (takeFault .imageOverrun s) k ds) := by
  rw [afterDecode, cmd_trkdata hend hrun hlen (exec_trkdata_overrun s hover),
    takeFault_lastResponse, andThen_next]
  rfl

/-- The image holds a data record that fits with `END` inside it (R18). -/
theorem endInImage_storeRecord {o : Addr} {b : List Byte} (hend : s.endInImage) (hfit : o.toNat + b.length ≤ 65536) :
    (s.storeRecord o b).endInImage := by
  simp only [State.endInImage, State.storeRecord, toNat_raiseEnd hfit] at *
  omega

/-- What a run that returns did with its next line: it went on, or ended with its slice, in an overrun or with a too small buffer
(R104). -/
theorem reconstructLoop_line_cases (hend : s.endInImage) (hrun : s.running)
    (h : reconstructLoop cap (.line l :: rest) k ds s = .next r) :
    (∃ t ds', GoesOn (decodeRecordLine l cap) s t ds ds' ∧ reconstructLoop cap rest k ds' t = .next r) ∨
    (∃ t : State, (∃ a, decodeRecordLine l cap = .endOfFile a) ∧ t.endInImage ∧ t.running ∧ writeSlice k ds t = .next r) ∨
    (∃ t, r = fatalRun .fatalBlock t k ds ∧ t.faultCode = 0xE5) ∨ (∃ t : State, r = fatalRun .fatalCapacity t k ds ∧ t.running) := by
  have hlen : l.length ≤ 65535 := by
    by_contra hlong
    rw [reconstructLoop_long_line cap l rest k ds s (Nat.not_le.mp hlong)] at h
    cases h
  rw [reconstructLoop_line cap l rest k ds s hend hrun hlen] at h
  cases hd : decodeRecordLine l cap with
  | data o b =>
    rw [hd] at h
    obtain hfit | hover := le_or_gt (o.toNat + b.length) 65536
    · rw [afterDecode_data (s := s.respond _) s.warn hend hrun (length_lt_of_data hd) hfit] at h
      refine .inl ⟨_, ds, ?_, h⟩
      exact ⟨nofun, endInImage_storeRecord (s := s) hend hfit, hrun, .inr ⟨nofun, rfl, rfl⟩⟩
    · rw [afterDecode_data_overrun (s := s.respond _) s.warn hend hrun (length_lt_of_data hd) hover] at h
      cases h
      exact .inr (.inr (.inl ⟨_, rfl, rfl⟩))
  | endOfFile a =>
    rw [hd] at h
    refine .inr (.inl ⟨_, ⟨a, rfl⟩, ?_, ?_, h⟩)
    · exact hend
    · exact hrun
  | bufferTooSmall =>
    rw [hd] at h
    cases h
    exact .inr (.inr (.inr ⟨_, rfl, hrun⟩))
  | extendedLinearAddress _ | ignorable =>
    rw [hd] at h
    refine .inl ⟨_, ds, ?_, h⟩
    exact ⟨nofun, hend, hrun, .inr ⟨nofun, rfl, rfl⟩⟩
  | invalidFormat | notARecord =>
    rw [hd] at h
    refine .inl ⟨_, _, ?_, h⟩
    exact ⟨nofun, hend, hrun, .inl ⟨rfl, rfl, rfl⟩⟩

/-- A fatal run ends with its one diagnostic (R106). -/
theorem endsFrom_fatalRun {o : RunOutcome} {t : State}
    (h : (o = .fatalBlock ∧ t.faultCode = 0xE5) ∨ (o ≠ .fatalBlock ∧ t.running)) : (fatalRun o t k ds).EndsFrom k ds :=
  ⟨h, fun _ => ⟨rfl, List.count_append⟩⟩

/-- A run that ends with its slice ends with the block running (R104, R107). -/
theorem writeSlice_endsFrom (hend : s.endInImage) (hrun : s.running) (h : writeSlice k ds s = .next r) : r.EndsFrom k ds := by
  obtain ⟨t, ht, ⟨k', rfl⟩ | rfl⟩ := writeSlice_eq_next hend hrun h
  · exact ⟨.inr ⟨nofun, ht⟩, fun hne => absurd rfl hne⟩
  · exact endsFrom_fatalRun (.inr ⟨nofun, ht⟩)

/-- A warning's diagnostics are not fatal (R93, R106). -/
theorem count_fatal_diagnosticsOf (action : Byte) : (diagnosticsOf action).count .fatal = 0 := by
  unfold diagnosticsOf
  split_ifs <;> rfl

/-- No line that the run goes on behind emits a fatal diagnostic (R106). -/
theorem GoesOn.count_fatal {d : DecodeResult} {t : State} {ds' : List Diagnostic} (h : GoesOn d s t ds ds') :
    ds'.count .fatal = ds.count .fatal := by
  obtain ⟨-, -, rfl⟩ | ⟨-, -, rfl⟩ := h.reports
  · rw [List.count_append, count_fatal_diagnosticsOf, Nat.add_zero]
  · rfl

/-- How the reconstructor's loop ends from a running block (R104 to R107). -/
theorem reconstructLoop_endsFrom (hend : s.endInImage) (hrun : s.running) (h : reconstructLoop cap reads k ds s = .next r) :
    r.EndsFrom k ds := by
  induction reads generalizing ds s with
  | nil => exact writeSlice_endsFrom hend hrun h
  | cons read rest ih =>
    cases read with
    | ioFail =>
      cases h
      exact endsFrom_fatalRun (.inr ⟨nofun, hrun⟩)
    | line l =>
      obtain ⟨t, ds', hon, hloop⟩ | ⟨t, -, htend, htrun, hslice⟩ | ⟨t, rfl, hcode⟩ | ⟨t, rfl, htrun⟩ :=
        reconstructLoop_line_cases hend hrun h
      · obtain ⟨hblock, hfatal⟩ := ih hon.endInImage hon.running hloop
        exact ⟨hblock, hon.count_fatal ▸ hfatal⟩
      · exact writeSlice_endsFrom htend htrun hslice
      · exact endsFrom_fatalRun (.inl ⟨rfl, hcode⟩)
      · exact endsFrom_fatalRun (.inr ⟨nofun, htrun⟩)

/-- To a running block, a reconstruction is TRKINIT and the loop (R104). -/
theorem reconstruct_of_running (hend : s.endInImage) (hrun : s.running) :
    reconstruct cap reads k s = reconstructLoop cap reads k [] (s.startRun.respond [statusOk]) := by
  rw [reconstruct, cmd_trkinit hend hrun]
  rfl

/-- To a running block, a reconstruction ends as its loop does (R104). -/
theorem reconstruct_endsFrom (hend : s.endInImage) (hrun : s.running) (h : reconstruct cap reads k s = .next r) :
    r.EndsFrom k [] :=
  reconstructLoop_endsFrom (s := s.startRun.respond [statusOk]) (Nat.zero_le _) hrun (reconstruct_of_running hend hrun ▸ h)

/-- A reconstruction that returns was started on a block with a step (U16). -/
theorem legal_of_reconstruct (h : reconstruct cap reads k s = .next r) : s.endInImage ∧ s.faultLegal := by
  obtain ⟨_, hcmd, -⟩ := andThen_eq_next h
  obtain ⟨_, hstep, -⟩ := andThen_eq_next hcmd
  obtain ⟨hend, hlegal, -⟩ := step_cases hstep
  exact ⟨hend, hlegal⟩

/-- A halted block does not complete TRKINIT, which ends the run in FATAL_BLOCK (R106, R115). -/
theorem reconstruct_of_halted (hend : s.endInImage) (hlegal : s.faultLegal) (hhalt : s.halted) :
    reconstruct cap reads k s = .next (fatalRun .fatalBlock (s.respond [s.faultCode]) k []) := by
  have hstep : step (sendNext (encode .trkinit) s) = .next (s.respond [s.faultCode]) :=
    step_of_halted (s := sendNext (encode .trkinit) s) hend hlegal hhalt rfl
  have hcompleted : completed [s.faultCode] ≠ true := by simpa [completed, byteAt, statusOk] using hhalt
  rw [reconstruct, cmd, sendPacket, hstep, andThen_next, State.lastResponse_respond, andThen_next, if_neg hcompleted]

end Reconstruct

/-- Settles O56: a halted block ends the run before its first line, a running one as `Run.EndsFrom` says. -/
theorem fatalReconstructionsWriteNothing : Obligations.FatalReconstructionsWriteNothing := by
  intro cap reads k s r h hfatal
  obtain ⟨hend, hlegal⟩ := legal_of_reconstruct h
  obtain ⟨hsink, hcount⟩ : r.sink = k ∧ r.diagnostics.count .fatal = 1 := by
    by_cases hrun : s.running
    · exact (reconstruct_endsFrom hend hrun h).fatal hfatal
    · cases (reconstruct_of_halted hend hlegal hrun).symm.trans h
      exact ⟨rfl, rfl⟩
  exact ⟨hcount, fun _ => hsink, fun _ _ _ _ => hsink⟩

/-- The converter sends no command that faults, so its loop ends well or in FATAL_IO (R106). -/
theorem convertLoop_outcome {C : Nat} (hC : C ≤ 255) {offset : Addr} {reads : List ReadBytes} {k : Sink} {s : State} {r : Run}
    (hend : s.endInImage) (hrun : s.running) (h : convertLoop C offset reads k s = .next r) : r.outcome ≠ .fatalBlock := by
  induction reads generalizing offset k s with
  | nil =>
    obtain hio | ⟨k', hok⟩ := emitLine_eq_next (answersLine_enceof 0) hend hrun h
    · simp [hio]
    · cases hok
      nofun
  | cons read rest ih =>
    cases read with
    | ioFail =>
      cases h
      nofun
    | bytes chunk =>
      rw [convertLoop] at h
      split_ifs at h with hlen
      obtain hio | ⟨k', hloop⟩ := emitLine_eq_next (answersLine_encdat offset (by omega) (by omega)) hend hrun h
      · simp [hio]
      · exact ih (s := s.answerLine _) hend hrun hloop

/-- A conversion on a running block does not end in FATAL_BLOCK (R106). -/
theorem convert_outcome {A : Addr} {C : Nat} {reads : List ReadBytes} {k : Sink} {s : State} {r : Run} (hend : s.endInImage)
    (hrun : s.running) (h : convert A C reads k s = .next r) : r.outcome ≠ .fatalBlock := by
  rw [convert] at h
  split_ifs at h with hC
  obtain hio | ⟨k', hloop⟩ := emitLine_eq_next (answersLine_encela 0) hend hrun h
  · simp [hio]
  · exact convertLoop_outcome (by simp only [Config.maxReclen] at hC; omega) (s := s.answerLine _) hend hrun hloop

/-- The two kinds of end of `Run.EndsFrom` exclude each other: a block that runs is not halted (R106, R107). -/
theorem Run.EndsFrom.fatalBlock_iff {r : Run} {k : Sink} {ds : List Diagnostic} (h : r.EndsFrom k ds) :
    (r.outcome = .fatalBlock ↔ r.block.faultCode = 0xE5) ∧ (r.outcome ≠ .fatalBlock ↔ r.block.running) := by
  obtain ⟨ho, hcode⟩ | ⟨ho, hrun⟩ := h.block
  · exact ⟨iff_of_true ho hcode, iff_of_false (not_not.mpr ho) fun hrun => absurd (hcode.symm.trans hrun) (by decide)⟩
  · exact ⟨iff_of_false ho fun hcode => absurd (hcode.symm.trans hrun) (by decide), iff_of_true ho hrun⟩

/-- Settles O57: how each procedure ends on a running block. -/
theorem blockFaultsOfARunAreOverruns : Obligations.BlockFaultsOfARunAreOverruns :=
  fun _ hend hrun => ⟨fun _ _ _ _ _ => convert_outcome hend hrun, fun _ _ _ _ h => (reconstruct_endsFrom hend hrun h).fatalBlock_iff⟩

end Sys2Proof.Machine

/-! The warnings of a reconstruction (45_host_procedures.md R109). -/

namespace Sys2Proof.Machine

/-- What a run emits for `n` warnings (R93, R109). -/
def warningReport (n : Nat) : List Diagnostic :=
  List.replicate (min n 10) .warning ++ if 11 ≤ n then [.furtherSuppressed] else []

/-- Up to 10 warnings are all emitted (R109). -/
theorem warningReport_of_le {n : Nat} (h : n ≤ 10) : warningReport n = List.replicate n .warning := by
  rw [warningReport, Nat.min_eq_left h, if_neg (by omega), List.append_nil]

/-- From an 11th warning on the report stays the same (R109). -/
theorem warningReport_of_gt {n : Nat} (h : 10 < n) : warningReport n = List.replicate 10 .warning ++ [.furtherSuppressed] := by
  rw [warningReport, Nat.min_eq_right h.le, if_pos (show 11 ≤ n from h)]

/-- One more warning adds the diagnostics of its action (R93, R109). -/
theorem warningReport_append {n : Nat} {warn : BitVec 32} (h : warn.toNat = min n 0xFFFFFFFF) :
    warningReport n ++ diagnosticsOf (warnAction warn) = warningReport (n + 1) := by
  obtain hlt | rfl | hgt := Nat.lt_trichotomy n 10
  · rw [warnAction_of_lt (by omega), warningReport_of_le hlt.le, warningReport_of_le hlt, List.replicate_succ']
    rfl
  · rw [warnAction_of_eq (by omega)]
    rfl
  · rw [warnAction_of_gt (by omega), warningReport_of_gt hgt, warningReport_of_gt (Nat.lt_succ_of_lt hgt)]
    rfl

/-- The line is no end-of-file record, so a run reads on behind it (R104). -/
def readsOn (cap : Byte) (l : Line) : Bool :=
  match decodeRecordLine l cap with
  | .endOfFile _ => false
  | _ => true

/-- A run stops at an end-of-file record (R104). -/
theorem readsOn_of_endOfFile {cap : Byte} {l : Line} {a : Addr} (h : decodeRecordLine l cap = .endOfFile a) :
    readsOn cap l = false := by
  rw [readsOn, h]

/-- Any other result is read past (R104). -/
theorem readsOn_of_not_endOfFile {cap : Byte} {l : Line} (h : ∀ a, decodeRecordLine l cap ≠ .endOfFile a) :
    readsOn cap l = true := by
  unfold readsOn
  split
  · next a ha => exact absurd ha (h a)
  · rfl

/-- The number of recoverable errors among the lines (R113). -/
def recoverableCount (cap : Byte) (lines : List Line) : Nat :=
  lines.countP fun l => decodeErrorClass (decodeRecordLine l cap) == some .recoverableFormat

/-- A line counts if its result is a recoverable error (R113). -/
theorem recoverableCount_cons (cap : Byte) (l : Line) (lines : List Line) : recoverableCount cap (l :: lines) =
    (if decodeErrorClass (decodeRecordLine l cap) = some .recoverableFormat then 1 else 0) + recoverableCount cap lines := by
  simp only [recoverableCount, List.countP_cons, beq_iff_eq, Nat.add_comm]

/-- Behind a line that the run goes on after, `n` warnings have become one more if its result is a recoverable error (R93, R104). -/
theorem GoesOn.counts {d : DecodeResult} {s t : State} {n : Nat} {ds' : List Diagnostic} (h : GoesOn d s t (warningReport n) ds')
    (hcount : s.warn.toNat = min n 0xFFFFFFFF) :
    ∃ m, m = n + (if decodeErrorClass d = some .recoverableFormat then 1 else 0) ∧ t.warn.toNat = min m 0xFFFFFFFF ∧
      ds' = warningReport m := by
  obtain ⟨hd, hwarn, rfl⟩ | ⟨hd, hwarn, rfl⟩ := h.reports
  · refine ⟨n + 1, by rw [if_pos hd], ?_, warningReport_append hcount⟩
    rw [hwarn, toNat_countWarning]
    omega
  · exact ⟨n, by rw [if_neg hd, Nat.add_zero], hwarn ▸ hcount, rfl⟩

/-- A run that ends well with its slice reports nothing more (R104). -/
theorem writeSlice_diagnostics {k : Sink} {ds : List Diagnostic} {s : State} {r : Run} (hend : s.endInImage) (hrun : s.running)
    (h : writeSlice k ds s = .next r) (hok : r.outcome = .ok) : r.diagnostics = ds := by
  obtain ⟨t, -, ⟨k', rfl⟩ | rfl⟩ := writeSlice_eq_next hend hrun h
  · rfl
  · cases hok

/-- After `n` warnings, the loop of a run that ends well reports those of the lines before any end-of-file record (R109). -/
theorem reconstructLoop_diagnostics {cap : Byte} {lines : List Line} {k : Sink} {s : State} {r : Run} {n : Nat}
    (hend : s.endInImage) (hrun : s.running) (hcount : s.warn.toNat = min n 0xFFFFFFFF)
    (h : reconstructLoop cap (lines.map .line) k (warningReport n) s = .next r) (hok : r.outcome = .ok) :
    r.diagnostics = warningReport (n + recoverableCount cap (lines.takeWhile (readsOn cap))) := by
  induction lines generalizing s n with
  | nil => exact writeSlice_diagnostics hend hrun h hok
  | cons l lines ih =>
    obtain ⟨t, ds', hon, hloop⟩ | ⟨t, ⟨a, ha⟩, htend, htrun, hslice⟩ | ⟨t, rfl, -⟩ | ⟨t, rfl, -⟩ :=
      reconstructLoop_line_cases hend hrun h
    · obtain ⟨m, hm, htcount, rfl⟩ := hon.counts hcount
      rw [ih hon.endInImage hon.running htcount hloop, List.takeWhile_cons_of_pos (readsOn_of_not_endOfFile hon.not_endOfFile),
        recoverableCount_cons, hm, Nat.add_assoc]
    · rw [writeSlice_diagnostics htend htrun hslice hok, List.takeWhile_cons_of_neg (by simp [readsOn_of_endOfFile ha])]
      rfl
    · cases hok
    · cases hok

/-- Settles O54: TRKINIT starts the loop at no warning. -/
theorem warningsOfARunAreCapped : Obligations.WarningsOfARunAreCapped := by
  intro cap lines k s r hend hrun h hok read N
  rw [reconstruct_of_running hend hrun] at h
  have hreport := reconstructLoop_diagnostics (s := s.startRun.respond [statusOk]) (n := 0) (Nat.zero_le _) hrun rfl h hok
  rwa [Nat.zero_add] at hreport

end Sys2Proof.Machine

/-! Streams without a data record (45_host_procedures.md R110). -/

namespace Sys2Proof.Machine

/-- A slice that is empty is not written (R104). -/
theorem writeSlice_of_empty {k : Sink} {ds : List Diagnostic} {s : State} (hend : s.endInImage) (hrun : s.running)
    (h : sliceBytes s = []) : writeSlice k ds s = .next ⟨.ok, s.respond (sliceResponse s), k, ds⟩ := by
  rw [writeSlice_eq hend hrun, if_pos h]

/-- No data record has been accepted since TRKINIT (R22). -/
def State.noRecord (s : State) : Prop := s.startAddr = Config.startReset ∧ s.endAddr = 0

/-- Without a data record `END` is 0 (R18, R22). -/
theorem State.noRecord.endInImage {s : State} (h : s.noRecord) : s.endInImage := by
  rw [State.endInImage, h.2]
  decide

/-- Without a data record the slice is empty (R22, R94). -/
theorem State.noRecord.sliceBytes_eq {s : State} (h : s.noRecord) : sliceBytes s = [] := by
  obtain ⟨hstart, hend⟩ := h
  rw [sliceBytes, sliceLength, hstart, hend]
  rfl

/-- A loop over lines that hold no data record and can all be sent ends well and leaves the sink as it is (R110). -/
theorem reconstructLoop_of_no_data {cap : Byte} {lines : List Line} {k : Sink} {ds : List Diagnostic} {s : State}
    (hrun : s.running) (hnone : s.noRecord)
    (hlines : ∀ l ∈ lines, l.length ≤ 65535 ∧ decodeRecordLine l cap ≠ .bufferTooSmall ∧
      ∀ o b, decodeRecordLine l cap ≠ .data o b) :
    ∃ r, reconstructLoop cap (lines.map .line) k ds s = .next r ∧ r.outcome = .ok ∧ r.sink = k := by
  induction lines generalizing ds s with
  | nil => exact ⟨_, writeSlice_of_empty hnone.endInImage hrun hnone.sliceBytes_eq, rfl, rfl⟩
  | cons l lines ih =>
    obtain ⟨⟨hlen, hfits, hdata⟩, hlines⟩ := List.forall_mem_cons.mp hlines
    rw [List.map_cons, reconstructLoop_line cap l _ k ds s hnone.endInImage hrun hlen]
    cases hd : decodeRecordLine l cap with
    | data o b => exact absurd hd (hdata o b)
    | bufferTooSmall => exact absurd hd hfits
    | endOfFile a => exact ⟨_, writeSlice_of_empty (s := s.respond _) hnone.endInImage hrun hnone.sliceBytes_eq, rfl, rfl⟩
    | extendedLinearAddress _ | ignorable => exact ih (s := s.respond _) hrun hnone hlines
    | invalidFormat | notARecord => exact ih (s := State.respond _ _) hrun hnone hlines

/-- Settles O55: TRKINIT starts the loop at no data record. -/
theorem streamsWithoutDataGiveEmptyOutput : Obligations.StreamsWithoutDataGiveEmptyOutput := by
  intro cap lines k s hend hrun hlines
  rw [reconstruct_of_running hend hrun]
  exact reconstructLoop_of_no_data (s := s.startRun.respond [statusOk]) hrun ⟨rfl, rfl⟩ hlines

end Sys2Proof.Machine

/-! The converter's output cut into its lines again (45_host_procedures.md R99; log entry 9). -/

namespace Sys2Proof.Machine

/-- A digit's character is no LF (R55). -/
theorem hexchr_ne_lf (n : BitVec 4) : hexchr n ≠ Config.lf := by
  revert n
  decide

/-- Characters without an LF are collected up to the LF behind them, which ends their line. -/
theorem splitLines_append_lf {body : Line} (hbody : Config.lf ∉ body) (acc : Line) (rest : List Byte) :
    splitLines acc (body ++ Config.lf :: rest) = (acc ++ body ++ [Config.lf]) :: splitLines [] rest := by
  induction body generalizing acc with
  | nil => rw [List.nil_append, splitLines, if_pos rfl, List.append_nil]
  | cons c body ih =>
    obtain ⟨hc, hbody⟩ := List.ne_and_not_mem_of_not_mem_cons hbody
    rw [List.cons_append, splitLines, if_neg hc.symm, ih hbody]
    simp

/-- A built line has its one LF at its end (R69). -/
theorem exists_encline_eq_append_lf (h p : List Byte) : ∃ body, Config.lf ∉ body ∧ encline h p = body ++ [Config.lf] := by
  refine ⟨Config.mark :: (h ++ p ++ [checksum (h ++ p)]).flatMap wrhex2, fun hmem => ?_, rfl⟩
  obtain hmark | hdigit := List.mem_cons.mp hmem
  · exact absurd hmark (by decide)
  · obtain ⟨n, hn⟩ := exists_hexchr_of_mem_flatMap_wrhex2 hdigit
    exact hexchr_ne_lf n hn.symm

/-- The lines of some records are cut where they were joined (R99). -/
theorem splitLines_recordLines (records : List Record) : splitLines [] (recordLines records) = records.map encodeRecord := by
  induction records with
  | nil => rfl
  | cons r records ih =>
    obtain ⟨body, hbody, hline⟩ := exists_encline_eq_append_lf (header r.data.length r.offset r.rectype) r.data
    rw [recordLines_cons, List.map_cons, ← ih, encodeRecord, hline, List.append_assoc, List.singleton_append,
      splitLines_append_lf hbody, List.nil_append]

end Sys2Proof.Machine

/-! Converting and reconstructing (45_host_procedures.md R108). -/

namespace Sys2Proof.Machine

/-- A slice of two parts (R94). -/
theorem Memory.readBytes_add (m : Memory) (a n k : Nat) : m.readBytes a (n + k) = m.readBytes a n ++ m.readBytes (a + n) k := by
  simp [Memory.readBytes, List.range_add, Nat.add_assoc]

/-- The slice a copy covers holds the copied bytes (R32). -/
theorem Memory.readBytes_writeBytes_same {m : Memory} (h : m.wf = true) {a : Nat} {bytes : List Byte}
    (hfit : a + bytes.length ≤ Config.imgSize) : (m.writeBytes a bytes).readBytes a bytes.length = bytes := by
  refine (List.map_congr_left fun i hi => ?_).trans (map_getD_range bytes)
  exact Memory.read_writeBytes_inside h hfit (List.mem_range.mp hi)

/-- A slice below a copy is as it was (R32). -/
theorem Memory.readBytes_writeBytes_below {m : Memory} (h : m.wf = true) {a n : Nat} {bytes : List Byte}
    (hfit : a + n + bytes.length ≤ Config.imgSize) : (m.writeBytes (a + n) bytes).readBytes a n = m.readBytes a n := by
  refine List.map_congr_left fun i hi => ?_
  exact Memory.read_writeBytes_outside h hfit (.inl (Nat.add_lt_add_left (List.mem_range.mp hi) a))

/-- The data records accepted so far hold `bytes` from `A` on, and nothing else (R97). -/
structure State.Holds (s : State) (A : Addr) (bytes : List Byte) : Prop where
  imageCanonical : s.imageCanonical
  image : s.img.readBytes A.toNat bytes.length = bytes
  watermarks : (bytes = [] ∧ s.noRecord) ∨ (bytes ≠ [] ∧ s.startAddr.toNat = A.toNat ∧ s.endAddr.toNat = A.toNat + bytes.length)

section Holds

variable {s : State} {A : Addr} {bytes : List Byte}

/-- `State.Holds` reads `IMG`, `START` and `END` only. -/
theorem State.Holds.respond (h : s.Holds A bytes) (r : Packet) : (s.respond r).Holds A bytes :=
  ⟨h.imageCanonical, h.image, h.watermarks⟩

/-- A run starts with no byte (R91). -/
theorem holds_startRun (s : State) (A : Addr) : s.startRun.Holds A [] := ⟨rfl, rfl, .inl ⟨rfl, rfl, rfl⟩⟩

/-- Bytes that fit in the image leave `END` inside it (R18). -/
theorem State.Holds.endInImage (h : s.Holds A bytes) (hfit : A.toNat + bytes.length ≤ 65536) : s.endInImage := by
  obtain ⟨-, hnone⟩ | ⟨-, -, htop⟩ := h.watermarks
  · exact hnone.endInImage
  · exact htop.trans_le hfit

/-- The slice is the bytes (R94). -/
theorem State.Holds.sliceBytes_eq (h : s.Holds A bytes) : sliceBytes s = bytes := by
  obtain ⟨rfl, hnone⟩ | ⟨-, hstart, htop⟩ := h.watermarks
  · exact hnone.sliceBytes_eq
  · have hlen : sliceLength s = bytes.length := sliceLength_eq (.inl ⟨by omega, by omega⟩)
    rw [sliceBytes, hlen, hstart, h.image]

/-- A data record that starts where the bytes end appends its own (R92). -/
theorem State.Holds.storeRecord (h : s.Holds A bytes) {o : Addr} {chunk : List Byte} (hsome : chunk ≠ [])
    (ho : o.toNat = A.toNat + bytes.length) (hfit : A.toNat + bytes.length + chunk.length ≤ 65536) :
    (s.storeRecord o chunk).Holds A (bytes ++ chunk) where
  imageCanonical := Memory.wf_writeBytes chunk s.img h.imageCanonical o.toNat (ho ▸ hfit)
  image := by
    simp only [State.storeRecord, ho, List.length_append, Memory.readBytes_add]
    rw [Memory.readBytes_writeBytes_below h.imageCanonical hfit, Memory.readBytes_writeBytes_same h.imageCanonical hfit, h.image]
  watermarks := by
    refine .inr ⟨by simp [hsome], ?_⟩
    simp only [State.storeRecord, toNat_lowerStart, toNat_raiseEnd (ho ▸ hfit), ho, List.length_append]
    obtain ⟨rfl, hstart, hend⟩ | ⟨-, hstart, hend⟩ := h.watermarks
    · have := A.isLt
      simp [hstart, hend]
      omega
    · omega

end Holds

section RoundTrip

variable {cap : Byte} {k : Sink} {ds : List Diagnostic} {s : State}

/-- What a line source returns that holds the lines of some records (R99). -/
def recordReads (records : List Record) : List ReadLine := (records.map encodeRecord).map .line

@[simp] theorem recordReads_cons (r : Record) (records : List Record) :
    recordReads (r :: records) = .line (encodeRecord r) :: recordReads records := rfl

@[simp] theorem recordReads_append (rs rs' : List Record) : recordReads (rs ++ rs') = recordReads rs ++ recordReads rs' := by
  simp [recordReads]

/-- One turn of the loop on a well-formed record's line (R76, R104). -/
theorem reconstructLoop_encodeRecord {r : Record} (hlen : r.data.length ≤ 255) (rest : List ReadLine) (hend : s.endInImage)
    (hrun : s.running) :
    reconstructLoop cap (.line (encodeRecord r) :: rest) k ds s =
      afterDecode cap rest k ds s.warn (s.respond (decodeResponse (classify cap r))) (classify cap r) := by
  have hline : (encodeRecord r).length ≤ 65535 := by
    rw [encodeRecord, length_encline, length_header]
    omega
  rw [reconstructLoop_line cap _ rest k ds s hend hrun hline, decodeRecordLine_encodeRecord hlen]

/-- The loop goes on behind an extended linear address record (R83, R104). -/
theorem reconstructLoop_ela (w : Addr) (rest : List ReadLine) (hend : s.endInImage) (hrun : s.running) :
    reconstructLoop cap (.line (encodeRecord ⟨0x04, 0, be16 w.toNat⟩) :: rest) k ds s =
      reconstructLoop cap rest k ds (s.respond (decodeResponse (.extendedLinearAddress w))) := by
  have hturn := reconstructLoop_encodeRecord (r := ⟨0x04, 0, be16 w.toNat⟩) (cap := cap) (k := k) (ds := ds)
    (by decide : 2 ≤ 255) rest hend hrun
  rwa [classify_ela] at hturn

/-- The loop ends with its slice at an end-of-file record (R80, R104). -/
theorem reconstructLoop_eof (start : Addr) (rest : List ReadLine) (hend : s.endInImage) (hrun : s.running) :
    reconstructLoop cap (.line (encodeRecord ⟨0x01, start, []⟩) :: rest) k ds s =
      writeSlice k ds (s.respond (decodeResponse (.endOfFile start))) :=
  reconstructLoop_encodeRecord (Nat.zero_le _) rest hend hrun

/-- The loop over the data records of some chunks appends them to the bytes held (R97, R104). -/
theorem reconstructLoop_dataRecords {chunks : List (List Byte)}
    (hchunks : ∀ chunk ∈ chunks, 1 ≤ chunk.length ∧ chunk.length ≤ cap.toNat) {A : Addr} {bytes : List Byte}
    (hfit : A.toNat + bytes.length + chunks.flatten.length ≤ 65536) (hholds : s.Holds A bytes) (hrun : s.running) :
    ∃ t : State, t.running ∧ t.Holds A (bytes ++ chunks.flatten) ∧ ∀ rest,
      reconstructLoop cap (recordReads (dataRecords (BitVec.ofNat 16 (A.toNat + bytes.length)) chunks) ++ rest) k ds s =
        reconstructLoop cap rest k ds t := by
  induction chunks generalizing bytes s with
  | nil => exact ⟨s, hrun, by simpa using hholds, fun _ => rfl⟩
  | cons chunk chunks ih =>
    obtain ⟨⟨hpos, hcap⟩, hchunks⟩ := List.forall_mem_cons.mp hchunks
    have hlen : chunk.length ≤ 255 := hcap.trans (Nat.le_of_lt_succ cap.isLt)
    rw [List.flatten_cons, List.length_append] at hfit
    have hend := hholds.endInImage (by omega)
    generalize ho : BitVec.ofNat 16 (A.toNat + bytes.length) = o
    have hoffset : o.toNat = A.toNat + bytes.length := ho ▸ Nat.mod_eq_of_lt (by omega)
    have hstored := (hholds.respond (decodeResponse (.data o chunk))).storeRecord (List.length_pos_iff.mp hpos) hoffset (by omega)
    obtain ⟨t, htrun, htholds, hloop⟩ := ih hchunks (by rw [List.length_append]; omega) (hstored.respond [statusOk]) hrun
    refine ⟨t, htrun, by rwa [List.flatten_cons, ← List.append_assoc], fun rest => ?_⟩
    rw [List.length_append, ← Nat.add_assoc, ← hoffset] at hloop
    rw [← hloop rest, dataRecords, recordReads_cons, List.cons_append,
      reconstructLoop_encodeRecord hlen _ hend hrun, classify_data hcap]
    exact afterDecode_data (s := s.respond _) s.warn hend hrun (Nat.lt_succ_of_le hlen) (by omega)

/-- A sink that does not fail takes the slice, empty or not (R104). -/
theorem writeSlice_of_no_failure (written : List Byte) (hend : s.endInImage) (hrun : s.running) :
    writeSlice ⟨written, none⟩ ds s = .next ⟨.ok, s.respond (sliceResponse s), ⟨written ++ sliceBytes s, none⟩, ds⟩ := by
  rw [writeSlice_eq hend hrun]
  split_ifs with h
  · rw [h, List.append_nil]
  · rfl

/-- A reconstruction from a conversion's lines, into a sink that does not fail, ends well with the bytes of the chunks (R108). -/
theorem reconstruct_convertedRecords {chunks : List (List Byte)}
    (hchunks : ∀ chunk ∈ chunks, 1 ≤ chunk.length ∧ chunk.length ≤ cap.toNat) {A : Addr}
    (hfit : A.toNat + chunks.flatten.length ≤ 65536) (hend : s.endInImage) (hrun : s.running) (written : List Byte) :
    ∃ t : State, t.Holds A chunks.flatten ∧
      reconstruct cap (recordReads (convertedRecords A chunks)) ⟨written, none⟩ s =
        .next ⟨.ok, t, ⟨written ++ chunks.flatten, none⟩, []⟩ := by
  obtain ⟨t, htrun, htholds, hloop⟩ := reconstructLoop_dataRecords (k := ⟨written, none⟩) (ds := []) (bytes := []) hchunks hfit
    (((holds_startRun s A).respond [statusOk]).respond (decodeResponse (.extendedLinearAddress 0))) hrun
  rw [List.nil_append] at htholds
  have htend := htholds.endInImage hfit
  rw [List.length_nil, Nat.add_zero, BitVec.ofNat_toNat, BitVec.setWidth_eq] at hloop
  have hslice := writeSlice_of_no_failure (s := t.respond (decodeResponse (.endOfFile 0))) (ds := []) written htend htrun
  rw [(htholds.respond _).sliceBytes_eq] at hslice
  refine ⟨_, (htholds.respond _).respond _, Eq.trans ?_ hslice⟩
  rw [reconstruct_of_running hend hrun, convertedRecords, List.append_assoc, List.singleton_append, recordReads_cons,
    reconstructLoop_ela 0 _ (s := s.startRun.respond [statusOk]) (Nat.zero_le _) hrun, recordReads_append, hloop]
  exact reconstructLoop_eof 0 [] htend htrun

end RoundTrip

/-- Settles O53: the converter writes the lines of its records, which are cut where they were joined, and reconstructing from them gives
the chunks, which join to the input. -/
theorem convertThenReconstructGivesTheBytesBack : Obligations.ConvertThenReconstructGivesTheBytesBack := by
  intro A C B cap s hend hrun hfit hpos hC hcap
  have hchunks := length_of_mem_fullChunks hpos B
  obtain ⟨responses, hconvert⟩ := convert_of_no_failure hpos hC hchunks A [] hend hrun
  obtain ⟨t, htholds, hreconstruct⟩ := reconstruct_convertedRecords (cap := cap) (A := A) (s := { s with responses := responses })
    (fun chunk hmem => ⟨(hchunks chunk hmem).1, (hchunks chunk hmem).2.trans hcap⟩)
    (by rwa [flatten_fullChunks hpos]) hend hrun []
  rw [flatten_fullChunks hpos] at htholds hreconstruct
  rw [recordReads, ← splitLines_recordLines] at hreconstruct
  refine ⟨_, _, hconvert, rfl, hreconstruct, rfl, rfl, fun hsome => ?_⟩
  exact (htholds.watermarks.resolve_left fun h => hsome h.1).2

end Sys2Proof.Machine

/-! Faults, the halt and its exit (60_exceptions.md R111 to R116, R119). -/

namespace Sys2Proof.Machine

/-- With an empty port a step changes nothing (R119). -/
theorem step_of_idle {s : State} (hend : s.endInImage) (hlegal : s.faultLegal) (hport : s.port = []) : step s = .next s := by
  simp only [step, fetch, stuckReason_eq_none hend hlegal, hport, idleStep]

/-- A reset at the port is taken, halted or not (R115, R120). -/
theorem step_of_reset {s : State} {rest : List HostAction} (hend : s.endInImage) (hlegal : s.faultLegal)
    (hport : s.port = .reset :: rest) : step s = .next (applyReset { s with port := rest }) := by
  simp only [step, fetch, stuckReason_eq_none hend hlegal, hport]

/-- Settles O15: `step_of_idle`. -/
theorem idleBlockKeepsItsState : Obligations.IdleBlockKeepsItsState :=
  fun _ => step_of_idle

/-- Settles O9: `step_command`. -/
theorem stepRunsTheDecodedCommand : Obligations.StepRunsTheDecodedCommand :=
  fun _ _ _ _ => step_command

/-- Settles O11: of the steps from a halted state, the idle one and the answer `[FAULT]` keep `FAULT`, and reset alone clears it. -/
theorem haltedBlockOnlyAnswersUntilReset : Obligations.HaltedBlockOnlyAnswersUntilReset := by
  refine ⟨fun s p rest => step_of_halted, fun s rest hend hlegal hport => ⟨_, step_of_reset hend hlegal hport, rfl⟩, ?_⟩
  intro s t hhalt hstep hrun
  obtain ⟨-, -, ⟨-, rfl⟩ | ⟨rest, hport, -⟩ | ⟨p, rest, -, -, rfl⟩ | ⟨p, rest, c, -, hrun', -⟩ | ⟨p, rest, i, -, hrun', -⟩⟩ :=
    step_cases hstep
  · exact absurd hrun hhalt
  · exact ⟨rest, hport⟩
  · exact absurd hrun hhalt
  · exact absurd hrun' hhalt
  · exact absurd hrun' hhalt

/-- A command with a fault of its own takes that fault, before it writes anything (R111, R114). -/
theorem exec_of_ownFault {i : Instr} {s t : State} {c : FaultCause} (hfault : ownFault i = some c) (h : exec i s = .next t) :
    t = takeFault c s := by
  obtain ⟨hnone, -⟩ | ⟨d, hd, rfl⟩ | ⟨rfl, -⟩ | ⟨b, rfl, -⟩ | ⟨rfl, -⟩ | ⟨o, b, rfl, hfit, -⟩ | ⟨rfl, -⟩ := exec_cases h
  case inl => rw [hnone] at hfault; cases hfault
  case inr.inl => rw [hd] at hfault; cases hfault; rfl
  case inr.inr.inr.inr.inr.inl => rw [ownFault, if_pos hfit] at hfault; cases hfault
  all_goals cases hfault

/-- Settles O12: only the prologue's fault and a command's own halt a running block, and both are `takeFault`. -/
theorem faultEntryIsPrecise : Obligations.FaultEntryIsPrecise := by
  intro s t hrun hstep hhalt
  obtain ⟨-, -, ⟨-, rfl⟩ | ⟨rest, -, rfl⟩ | ⟨p, rest, -, hhalt', -⟩ | ⟨p, rest, c, hport, -, -, rfl⟩ |
    ⟨p, rest, i, hport, -, -, hexec⟩⟩ := step_cases hstep
  · exact absurd hrun hhalt
  · exact absurd rfl hhalt
  · exact absurd hrun hhalt'
  · exact ⟨p, rest, faultByte c, hport, faultByte_mem_faultCodes c, rfl⟩
  · cases hfault : ownFault i with
    | none => exact absurd ((exec_completed hfault hexec).2.trans hrun) hhalt
    | some c => exact ⟨p, rest, faultByte c, hport, faultByte_mem_faultCodes c, exec_of_ownFault hfault hexec⟩

/-- The fault a packet raises in a running block, if it raises one: the prologue's, else the command's own (R111, R116). -/
def packetFault (p : Packet) : Option FaultCause :=
  match decodePacket p with
  | .error c => some c
  | .ok i => ownFault i

/-- A packet whose decoding fails raises the prologue's fault (R111). -/
theorem packetFault_of_error {p : Packet} {c : FaultCause} (h : decodePacket p = .error c) : packetFault p = some c := by
  simp only [packetFault, h]

/-- A packet that decodes raises its command's own fault, if it has one (R111). -/
theorem packetFault_of_ok {p : Packet} {i : Instr} (h : decodePacket p = .ok i) : packetFault p = ownFault i := by
  simp only [packetFault, h]

/-- A running block takes the fault of the packet at its port, or goes on running if there is none (R111, R114). -/
theorem step_packetFault {s t : State} {p : Packet} {rest : List HostAction} (hrun : s.running) (hport : s.port = .command p :: rest)
    (hstep : step s = .next t) :
    (packetFault p = none ∧ t.running) ∨ ∃ c, packetFault p = some c ∧ t = takeFault c { s with port := rest } := by
  have hend := (step_cases hstep).1
  cases hd : decodePacket p with
  | error c =>
    rw [step_packet_error hend hrun hport hd] at hstep
    exact .inr ⟨c, packetFault_of_error hd, by cases hstep; rfl⟩
  | ok i =>
    rw [step_command hend hrun hport hd] at hstep
    rw [packetFault_of_ok hd]
    cases hfault : ownFault i with
    | none => exact .inl ⟨rfl, (exec_completed hfault hstep).2.trans hrun⟩
    | some c => exact .inr ⟨c, rfl, exec_of_ownFault hfault hstep⟩

/-- Different causes have different codes (R112). -/
theorem faultByte_injective : Function.Injective faultByte := by
  intro c d
  cases c <;> cases d <;> decide

/-- After a packet of a running block `FAULT` holds a cause's code exactly if the packet raises that fault (R112). -/
theorem faultCode_eq_faultByte_iff {s t : State} {p : Packet} {rest : List HostAction} (hrun : s.running)
    (hport : s.port = .command p :: rest) (hstep : step s = .next t) (c : FaultCause) :
    t.faultCode = faultByte c ↔ packetFault p = some c := by
  obtain ⟨hnone, htrun⟩ | ⟨d, hd, rfl⟩ := step_packetFault hrun hport hstep
  · rw [hnone, show t.faultCode = 0 from htrun]
    exact ⟨fun h => absurd h.symm (faultByte_ne_zero c), nofun⟩
  · rw [hd, Option.some_inj]
    exact faultByte_injective.eq_iff

/-- What is wrong with a packet that raises a fault, for each of the five causes (R112). -/
def HasCause (p : Packet) : FaultCause → Prop
  | .illegalOpcode => decodePacket p = .error .illegalOpcode
  | .malformedPacket => decodePacket p = .error .malformedPacket
  | .operand => ∃ b : Byte, decodePacket p = .ok (.hexchr b) ∧ 16 ≤ b.toNat
  | .contract => ∃ o : Addr, decodePacket p = .ok (.encdat o [])
  | .imageOverrun => ∃ (o : Addr) (b : List Byte), decodePacket p = .ok (.trkdata o b) ∧ 65536 < o.toNat + b.length

/-- A packet that raises a fault has the fault's cause. ENCDAT's contract leaves only the empty list to violate it, since a packet's count
field spells no more than 255 bytes (R112, R71). -/
theorem hasCause_of_packetFault {p : Packet} {c : FaultCause} (h : packetFault p = some c) : HasCause p c := by
  cases hd : decodePacket p with
  | error d =>
    rw [packetFault_of_error hd] at h
    cases h
    obtain rfl | rfl := decodePacket_eq_error hd
    · exact hd
    · exact hd
  | ok i =>
    have hwf : i.wf = true := (decodedCommandsEncodeToTheirPacket p i hd).2.1
    rw [packetFault_of_ok hd] at h
    obtain ⟨b, rfl⟩ | ⟨o, b, rfl⟩ | ⟨o, b, rfl⟩ := ownFault_eq_some h
    · obtain ⟨hb, rfl⟩ : ¬b.toNat < 16 ∧ .operand = c := by simpa [ownFault] using h
      exact ⟨b, hd, not_lt.mp hb⟩
    · obtain ⟨hb, rfl⟩ : ¬(0 < b.length ∧ b.length < 256) ∧ .contract = c := by simpa [ownFault] using h
      have hle : b.length ≤ 255 := of_decide_eq_true hwf
      obtain rfl : b = [] := List.eq_nil_of_length_eq_zero (by omega)
      exact ⟨o, hd⟩
    · obtain ⟨hb, rfl⟩ : ¬o.toNat + b.length ≤ 65536 ∧ .imageOverrun = c := by simpa [ownFault] using h
      exact ⟨o, b, hd, not_le.mp hb⟩

/-- A packet with a fault's cause raises the fault (R112). -/
theorem packetFault_of_hasCause {p : Packet} {c : FaultCause} (h : HasCause p c) : packetFault p = some c := by
  cases c with
  | illegalOpcode => exact packetFault_of_error h
  | malformedPacket => exact packetFault_of_error h
  | operand =>
    obtain ⟨b, hd, hb⟩ := h
    exact (packetFault_of_ok hd).trans (if_neg (not_lt.mpr hb))
  | contract =>
    obtain ⟨o, hd⟩ := h
    exact packetFault_of_ok hd
  | imageOverrun =>
    obtain ⟨o, b, hd, hb⟩ := h
    exact (packetFault_of_ok hd).trans (if_neg (not_le.mpr hb))

/-- Settles O13: `FAULT` holds a cause's code exactly if the packet raises that fault, hence exactly if it has that cause. -/
theorem faultCodesHaveTheirCauses : Obligations.FaultCodesHaveTheirCauses := by
  intro s t p rest hrun hport hstep
  have hcause (c : FaultCause) : t.faultCode = faultByte c ↔ HasCause p c :=
    (faultCode_eq_faultByte_iff hrun hport hstep c).trans ⟨hasCause_of_packetFault, packetFault_of_hasCause⟩
  refine ⟨hcause .illegalOpcode, hcause .malformedPacket, hcause .operand, hcause .contract, hcause .imageOverrun, ?_⟩
  obtain ⟨-, htrun⟩ | ⟨c, -, rfl⟩ := step_packetFault hrun hport hstep
  · exact .inl htrun
  · exact .inr (faultByte_mem_faultCodes c)

end Sys2Proof.Machine

/-! What reset sets and what it keeps (70_reset_and_hazards.md R120, log entry 12). -/

namespace Sys2Proof.Machine

/-- Every element of the block is at its reset value, column "Reset value" of R13; `FAULT` 0x00 also says that the block runs (R121). -/
structure State.AtResetValues (s : State) : Prop where
  ck : s.ck = 0x00
  startAddr : s.startAddr = 0xFFFF
  endAddr : s.endAddr = 0
  warn : s.warn = 0
  faultCode : s.faultCode = 0x00
  img : ∀ a : Nat, s.img.read a = 0x00

/-- Reset sets every element, whatever the state before (R120). -/
theorem atResetValues_applyReset (s : State) : (applyReset s).AtResetValues where
  ck := applyReset_ck s
  startAddr := applyReset_startAddr s
  endAddr := applyReset_endAddr s
  warn := applyReset_warn s
  faultCode := applyReset_faultCode s
  img a := by rw [applyReset_img, Memory.read_nil]

/-- A block already in the reset state is not changed by reset (R120). -/
theorem applyReset_reset : applyReset State.reset = State.reset := rfl

/-- A step that takes a reset from the port, from whatever state it does, ends where `applyReset` says (R25, R120). -/
theorem eq_applyReset_of_step {s t : State} {rest : List HostAction} (hport : s.port = .reset :: rest) (hstep : step s = .next t) :
    t = applyReset { s with port := rest } := by
  obtain ⟨hend, hlegal, -⟩ := step_cases hstep
  rw [step_of_reset hend hlegal hport] at hstep
  cases hstep
  rfl

/-- Settles O1: the reset state is itself the outcome of a reset, so both halves are `atResetValues_applyReset`. -/
theorem resetRestoresEveryElement : Obligations.ResetRestoresEveryElement := by
  refine ⟨?_, fun s rest hinImage hlegal hport => ?_⟩
  · obtain ⟨hck, hstart, hend, hwarn, hfault, himg⟩ : State.reset.AtResetValues :=
      applyReset_reset ▸ atResetValues_applyReset State.reset
    exact ⟨hck, hstart, hend, hwarn, hfault, himg⟩
  · obtain ⟨hck, hstart, hend, hwarn, hfault, himg⟩ := atResetValues_applyReset { s with port := rest }
    exact ⟨_, step_of_reset hinImage hlegal hport, hck, hstart, hend, hwarn, hfault, himg, hfault⟩

/-- Settles O2: the step ends in `applyReset` of the state whose port has lost the reset, and `applyReset` keeps port and responses. -/
theorem resetKeepsTheHostsSide : Obligations.ResetKeepsTheHostsSide := by
  intro s t rest hport hstep
  obtain rfl := eq_applyReset_of_step hport hstep
  exact ⟨applyReset_port _, applyReset_responses _⟩

end Sys2Proof.Machine
